-- ==== Sys2Proof/Word.lean ====
section
/-! DEFINITION. The word types of the machine (spec/00_scope.md R8: every value is unsigned). -/

namespace Sys2Proof

/-- A byte of `IN` or `OUT`, a command code, the register `STATUS` (R8, R14, R40). -/
abbrev Byte := BitVec 8

/-- A 16-bit field: a port, the declared length, a checksum word (R42, R75). -/
abbrev Half := BitVec 16

/-- A 32-bit field: an address, the value of a radix group (R14, R17). -/
abbrev Word := BitVec 32

end Sys2Proof
end

