-- ==== Sys2Proof/Syntax.lean ====
section
/-! DEFINITION. The commands of the machine: the rows of spec/opcode_table.json. -/

namespace Sys2Proof

/-- One constructor per command (R2, R60). A command has no operand fields: its operands are
`IN[0 .. IN_LEN)` and, for `PKTRX`, the filter registers (R60, R61). -/
inductive Instr where
  /-- `A85DEC`, code 0x01 (R120). -/
  | a85dec
  /-- `PARPACK`, code 0x02 (R150). -/
  | parpack
  /-- `PKTRX`, code 0x03 (R170). -/
  | pktrx
  deriving DecidableEq, Repr

end Sys2Proof
end

