-- ==== Sys2Proof/WellFormed.lean ====
section
/-! DEFINITION. Well-formedness of commands and of command bytes. -/

namespace Sys2Proof

/-- Every command is well-formed: "there are no other fields, no register operands, no immediates
and no modifiers" (R60), so there is nothing in a command that could be out of range. -/
def Instr.wellFormed : Instr → Bool
  | .a85dec => true
  | .parpack => true
  | .pktrx => true

/-- A byte is a command code when it is none of the reserved ones, `0x00` and `0x04` to `0xFF`
(R77). -/
def commandByteWellFormed (c : Byte) : Bool :=
  !(c.toNat == 0 || (4 ≤ c.toNat && c.toNat ≤ 255))

end Sys2Proof
end

