-- ==== Sys2Proof/Decode.lean ====
section
/-! DEFINITION. Decoding a command byte, and after it the encoder (spec/30_encoding.md R60, R77). -/

namespace Sys2Proof

/-- Why bytes are no command. -/
inductive DecodeError where
  /-- There is no byte to decode. -/
  | empty
  /-- The byte is a reserved code (R77). -/
  | reserved (code : Byte)
  deriving DecidableEq, Repr

/-- The command a byte written to `CMD` names: format `CMD8`, bits 7:0 are the operation code
(R60); a reserved code is rejected by name (R77). -/
def decodeByte (c : Byte) : Except DecodeError Instr :=
  if c = 0x01#8 then .ok .a85dec
  else if c = 0x02#8 then .ok .parpack
  else if c = 0x03#8 then .ok .pktrx
  else .error (.reserved c)

/-- The first command of a sequence of command bytes, with the bytes after it: "All commands have
the same length (one byte) and the same format" (R60). Log 18. -/
def decode : List Byte → Except DecodeError (Instr × List Byte)
  | [] => .error .empty
  | c :: rest =>
    match decodeByte c with
    | .ok i => .ok (i, rest)
    | .error e => .error e

/-- The command code of a command (the table of R60). -/
def opcode : Instr → Byte
  | .a85dec => 0x01#8
  | .parpack => 0x02#8
  | .pktrx => 0x03#8

/-- The bytes of a command (R60). -/
def encode (i : Instr) : List Byte := [opcode i]

/-- The first byte of an instruction word numbered as spec/opcode_table.json numbers it: bit 0 is
the least significant bit of the first byte, and the bits from `nbits` up are zero. -/
def tableByte (nbits w : Nat) : Byte := BitVec.ofNat 8 (w % 2 ^ nbits)

/-- The command the decoder reads from a table row's word. -/
def decodeTableWord (nbits w : Nat) : Option Instr :=
  match decode [tableByte nbits w] with
  | .ok (i, _) => some i
  | .error _ => none

end Sys2Proof
end

