-- ==== Sys2Proof/Config.lean ====
section
/-! DEFINITION. The free values: what the spec leaves unspecified and a model must not constrain
(spec/93_implementation_defined.md U7, U8, U9). None has a body, so no proof can see a value. -/

namespace Sys2Proof.Config

/-- The unspecified contents of `IN` after reset (R240, U8): the byte at an address nobody has
written since reset number `epoch`. A fixed byte per reset and address, because reading a location
twice gives the same value (R45). Log 5. -/
opaque unwrittenIn : (epoch : Nat) → (addr : Nat) → Byte

/-- An unspecified byte of `OUT` (R13, R47, R246, U7, U9), by number of draw and address.
Log 6, log 7. -/
opaque unspecifiedOut : (draw : Nat) → (addr : Nat) → Byte

/-- The unspecified value a host read of `OUT_LEN` returns while `BUSY = 1` (R47, R246, U9), by
number of draw; a use of it cuts it to the register's width. Log 7. -/
opaque busyOutLen : (draw : Nat) → Nat

end Sys2Proof.Config
end

