-- ==== Sys2Proof/Machine/State.lean ====
section
/-! DEFINITION. The state of the machine, its faults and refusals, and the state after reset
(spec/10_state.md, spec/70_reset_and_hazards.md R240). -/

namespace Sys2Proof.Machine

/-- A byte memory: address and byte pairs, addresses strictly rising. An unlisted address holds no
value ("a model gives these bytes no value", R13, R240). -/
abbrev Memory := List Host.Cell

/-- The seven host-visible registers (R14). -/
inductive Reg where
  | cmd
  | status
  | inLen
  | outLen
  | fltSrc
  | fltDst
  | fltDport
  deriving DecidableEq, Repr

/-- What the host can do to the machine in one access (R10, R14, R40, R82, R240). The host cannot
write `OUT` (R40), so there is no such access. -/
inductive HostAccess where
  /-- Write a value to a register. A write of `CMD` starts a command and, in the atomic reading of
  R11, runs it to completion. -/
  | writeReg (r : Reg) (v : Nat)
  /-- Write a code to `CMD` in an implementation where the command takes time (R47, R246): the next
  `during` host accesses fall between its start and its completion. Log 2. -/
  | startCmd (c : Byte) (during : Nat)
  /-- Read a register. -/
  | readReg (r : Reg)
  /-- Write one byte of `IN`. -/
  | writeIn (addr : Nat) (b : Byte)
  /-- Read one byte of `IN`. -/
  | readIn (addr : Nat)
  /-- Read one byte of `OUT`. -/
  | readOut (addr : Nat)
  /-- Reset the block (R240, R241). -/
  | reset
  /-- The pseudo-operation `MOVE` of R82: copy `OUT[0 .. OUT_LEN)` to `IN[0 ..)` and `OUT_LEN` to
  `IN_LEN`. Log 12. -/
  | move
  deriving DecidableEq, Repr

/-- A command in progress, and how many host accesses still fall inside its run (R47, R241, R246).
Log 2. -/
structure Running where
  instr : Instr
  left : Nat
  deriving DecidableEq, Repr

/-- The errors a command can end with (R62, R210). -/
inductive CmdError where
  | missingDelimiter
  | nonAsciiInput
  | invalidSymbol
  | groupOverflow
  | misalignedInput
  | truncatedHeader
  | badLength
  | badCommand
  deriving DecidableEq, Repr

/-- The filter triple (R14, R171). -/
structure FilterTriple where
  src : Word
  dst : Word
  dport : Half
  deriving DecidableEq, Repr

/-- Everything the spec gives the machine. `CMD` has no field because it "holds nothing between
writes" (R14); the working registers of R17 are local variables of the commands (log 8). -/
structure State where
  /-- `STATUS`: `CODE` 3:0, `DONE` 4, `BUSY` 5, bits 7:6 zero (R14, R15). -/
  status : Byte
  /-- `IN_LEN`, `LW` bits (R14, R16). -/
  inLen : Nat
  /-- `OUT_LEN`, `LW` bits (R14). -/
  outLen : Nat
  /-- `FLT_SRC` (R14). -/
  fltSrc : Word
  /-- `FLT_DST` (R14). -/
  fltDst : Word
  /-- `FLT_DPORT` (R14). -/
  fltDport : Half
  /-- The input buffer `IN` (R12). -/
  inBuf : Memory
  /-- The output buffer `OUT` (R13). -/
  outBuf : Memory
  /-- The parameter `N_MAX`, or `none` for unbounded buffers (R7, U11). Log 3. -/
  nMax : Option Nat
  /-- The command in progress, if a command takes time (R15, R47). Log 2. -/
  running : Option Running
  /-- The host's accesses still to come, oldest first (R46). Log 1. -/
  pending : List HostAccess
  /-- The values the host's reads returned, newest first. The model's own field (log 11). -/
  hostReads : List Nat
  /-- Which reset the unspecified contents of `IN` date from. The model's own field (log 22). -/
  inEpoch : Nat
  /-- How many unspecified values have been drawn. The model's own field (log 22). -/
  draws : Nat
  deriving DecidableEq, Repr

/-- Why the machine stops with a fault. -/
inductive Fault where
  /-- Raised by a host access to an address of `IN` at or past `N_MAX`, which does not exist (R40).
  Safe: the model stops (log 9). -/
  | inAddress (addr : Nat)
  /-- Raised by a host access to an address of `OUT` at or past `N_MAX`, which does not exist (R40).
  Safe: the model stops (log 9). -/
  | outAddress (addr : Nat)
  deriving DecidableEq, Repr

/-- Why the model gives an access or a command no meaning. -/
inductive Refusal where
  /-- An instruction without a meaning, by its mnemonic; raised by `exec` alone. Safe. -/
  | notModelled (mnemonic : String)
  /-- Raised by the start of a command with `IN_LEN > N_MAX`, which "a model refuses (gives no
  meaning to)" (R16, U10). Safe (log 10). -/
  | inLenAboveCapacity (len : Nat)
  /-- Raised by a host read of `OUT` at or past `OUT_LEN`: "a host read of them is `refuse`" (U7);
  after a reset and before any command, where U8 says only `any value`, by the model's choice.
  Safe (log 6). -/
  | outPastLength (addr : Nat)
  /-- Raised by a host write of a value that "is not representable" in the register's width (R16).
  Safe (log 4). -/
  | notRepresentable (r : Reg) (v : Nat)
  deriving DecidableEq, Repr

/-- The outcome of a step, of a command, of a host access. -/
abbrev Result := Host.Outcome State Fault Refusal

/-- The machine right after reset (R240): idle, every register zero, no byte of `IN` or `OUT` with a
value. `nMax` takes the unbounded reading of R7 (log 3); the last four fields are the host's side
and the model's own (logs 1, 11, 22). -/
def State.reset : State where
  status := 0x00#8
  inLen := 0
  outLen := 0
  fltSrc := 0x00000000#32
  fltDst := 0x00000000#32
  fltDport := 0x0000#16
  inBuf := []
  outBuf := []
  nMax := none
  running := none
  pending := []
  hostReads := []
  inEpoch := 0
  draws := 0

end Sys2Proof.Machine
end

