-- ==== Sys2Proof/Machine/Operands.lean ====
section
/-! DEFINITION. The operands of the commands: the input bytes, the filter triple, slices and
big-endian fields (spec/00_scope.md R8, spec/20_memory.md R41, R42, spec/30_encoding.md R61), and the
reading of one byte of a buffer. -/

namespace Sys2Proof.Machine

/-- The byte an address of a memory holds, `none` where it holds no value. -/
def Memory.read : Memory → Nat → Option Byte
  | [], _ => none
  | (x, b) :: rest, a => if a = x then some b else Memory.read rest a

/-- The byte of `IN` at an address: the byte written there, or the unspecified contents since the
last reset (R12, R240, U8). Log 5. -/
def State.inByte (s : State) (a : Nat) : Byte :=
  (s.inBuf.read a).getD (Config.unwrittenIn s.inEpoch a)

/-- The byte of `OUT` at an address; an address with no value reads as a free value (R13, U7).
Log 6. -/
def State.outByte (s : State) (a : Nat) : Byte :=
  (s.outBuf.read a).getD (Config.unspecifiedOut s.draws a)

/-- `MemRead(IN, a, n)`, the sequence `IN[a .. a+n)` (R8). -/
def State.memReadIn (s : State) (a n : Nat) : List Byte :=
  (List.range n).map fun k => s.inByte (a + k)

/-- The operand of all three commands: `B = MemRead(IN, 0, x[IN_LEN])` (R41, R60). -/
def State.inBytes (s : State) : List Byte := s.memReadIn 0 s.inLen

/-- The valid output `OUT[0 .. x[OUT_LEN])` (R13, R41). -/
def State.outBytes (s : State) : List Byte := (List.range s.outLen).map s.outByte

/-- The filter triple, as the registers hold it (R171). -/
def State.filterTriple (s : State) : FilterTriple where
  src := s.fltSrc
  dst := s.fltDst
  dport := s.fltDport

/-- The subsequence `S[i .. j)` (R8). -/
def slice (S : List Byte) (i j : Nat) : List Byte := (S.drop i).take (j - i)

/-- The element `S[i]`; it is used below the length only (log 23). -/
def byteAt (S : List Byte) (i : Nat) : Byte := S.getD i 0#8

/-- `be16(S, i)`: the byte at the lower index is the more significant (R8, R42). -/
def be16 (S : List Byte) (i : Nat) : Half := byteAt S i ++ byteAt S (i + 1)

/-- `be32(S, i)` (R8, R42). -/
def be32 (S : List Byte) (i : Nat) : Word := be16 S i ++ be16 S (i + 2)

/-- The 16-bit big-endian words of a byte sequence, an odd last byte padded with a zero byte as the
low half (R185). -/
def checksumWords : List Byte → List Half
  | [] => []
  | [a] => [a ++ 0x00#8]
  | a :: b :: rest => (a ++ b) :: checksumWords rest

/-- An address of `IN` or `OUT` exists when it is below `N_MAX` (R40). -/
def State.addrExists (s : State) (a : Nat) : Bool :=
  match s.nMax with
  | none => true
  | some n => a < n

/-- A length is at most `N_MAX` (R12, R13, R16). -/
def State.lenFits (s : State) (n : Nat) : Bool :=
  match s.nMax with
  | none => true
  | some m => n ≤ m

/-- `LW`: "the least width that holds `N_MAX`" (R7). -/
def lengthWidth (n : Nat) : Nat := if n = 0 then 0 else Nat.log2 n + 1

/-- A value an `LW`-bit register can represent (R7, R16). Log 4. -/
def State.lenRepresentable (s : State) (v : Nat) : Bool :=
  match s.nMax with
  | none => true
  | some m => v < 2 ^ lengthWidth m

/-- A number cut to `LW` bits (R7), for the value of a register the spec leaves unspecified. -/
def State.cutToLength (s : State) (v : Nat) : Nat :=
  match s.nMax with
  | none => v
  | some m => v % 2 ^ lengthWidth m

/-- The register numbers of R14. -/
def Reg.number : Reg → Nat
  | .cmd => 0
  | .status => 1
  | .inLen => 2
  | .outLen => 3
  | .fltSrc => 4
  | .fltDst => 5
  | .fltDport => 6

/-- The register of a number; "there are no others" (R14). -/
def Reg.ofNumber : Nat → Option Reg
  | 0 => some .cmd
  | 1 => some .status
  | 2 => some .inLen
  | 3 => some .outLen
  | 4 => some .fltSrc
  | 5 => some .fltDst
  | 6 => some .fltDport
  | _ => none

/-- Whether a value fits the width of a register (the table of R14). -/
def State.regRepresentable (s : State) (r : Reg) (v : Nat) : Bool :=
  match r with
  | .cmd => v < 2 ^ 8
  | .status => v < 2 ^ 8
  | .inLen => s.lenRepresentable v
  | .outLen => s.lenRepresentable v
  | .fltSrc => v < 2 ^ 32
  | .fltDst => v < 2 ^ 32
  | .fltDport => v < 2 ^ 16

end Sys2Proof.Machine
end

