-- ==== Sys2Proof/Machine/Flags.lean ====
section
/-! DEFINITION. The status register and the predicates that play the part of flags
(spec/10_state.md R15, R19): `STATUS`, the parity test, the one's-complement checksum. -/

namespace Sys2Proof.Machine

/-- `STATUS.CODE` (R15). -/
def State.code (s : State) : BitVec 4 := s.status.extractLsb' 0 4

/-- `STATUS.DONE` (R15). -/
def State.done (s : State) : Bool := s.status.getLsbD 4

/-- `STATUS.BUSY` (R15). -/
def State.busy (s : State) : Bool := s.status.getLsbD 5

/-- The error codes of R62 and R210. -/
def CmdError.code : CmdError → BitVec 4
  | .missingDelimiter => 1#4
  | .nonAsciiInput => 2#4
  | .invalidSymbol => 3#4
  | .groupOverflow => 4#4
  | .misalignedInput => 5#4
  | .truncatedHeader => 6#4
  | .badLength => 7#4
  | .badCommand => 8#4

/-- The class `FormatError` of R211: codes 1, 2, 3, 5 and, by this spec, 4. -/
def CmdError.isFormatError : CmdError → Bool
  | .missingDelimiter => true
  | .nonAsciiInput => true
  | .invalidSymbol => true
  | .groupOverflow => true
  | .misalignedInput => true
  | .truncatedHeader => false
  | .badLength => false
  | .badCommand => false

/-- `STATUS` during a command: `BUSY = 1`, `DONE = 0`, `CODE = 0` (R15, R100). -/
def statusBusy : Byte := 0x20#8

/-- `STATUS` after a command: `0x10 | CODE` (R15). -/
def statusDone (code : BitVec 4) : Byte := 0x10#8 ||| code.setWidth 8

/-- The parity of the seven payload bits, `b[7] ^ ... ^ b[1]` (R151). -/
def payloadParity (b : Byte) : Bool :=
  b.getLsbD 7 ^^ b.getLsbD 6 ^^ b.getLsbD 5 ^^ b.getLsbD 4 ^^ b.getLsbD 3 ^^ b.getLsbD 2 ^^
    b.getLsbD 1

/-- `correct(b)` iff `pflag = parity` (R151). -/
def correctParity (b : Byte) : Bool := b.getLsbD 0 == payloadParity b

/-- One's-complement addition: `raw = a + b` in 32 bits, the carry out of bit 15 added back
(R184). -/
def fold16 (a b : Half) : Half :=
  let raw : Word := a.setWidth 32 + b.setWidth 32
  raw.setWidth 16 + (raw >>> 16).setWidth 16

/-- The seed of a checksum and the sentinel a valid one folds to (R20, R185). -/
def allOnes : Half := 0xFFFF#16

/-- `csum(S)`: the words of `S` folded in order from the seed (R185). -/
def csum (S : List Byte) : Half := (checksumWords S).foldl fold16 allOnes

end Sys2Proof.Machine
end

