-- ==== Sys2Proof/Machine/Ops.lean ====
section
/-! DEFINITION. The operations the commands share: memory writes, emitting output, the start and the
two ends of a command (spec/40_commands.md R100, R101, spec/60_exceptions.md R213, R214). -/

namespace Sys2Proof.Machine

/-- The canonical form of a memory: addresses strictly rising. An unlisted address holds no value,
so no listed byte can repeat what an unlisted one reads as. -/
abbrev Memory.wf (m : Memory) : Prop := m.Pairwise fun x y => x.1 < y.1

/-- Writing one byte. -/
def Memory.write : Memory → Nat → Byte → Memory
  | [], a, b => [(a, b)]
  | (x, c) :: rest, a, b =>
    if a < x then (a, b) :: (x, c) :: rest
    else if a = x then (a, b) :: rest
    else (x, c) :: Memory.write rest a b

/-- `MemWrite(_, a, len(v), v)`: the bytes of `v` at the addresses from `a` up (R8). -/
def Memory.writeBytes : Memory → Nat → List Byte → Memory
  | m, _, [] => m
  | m, a, b :: rest => Memory.writeBytes (m.write a b) (a + 1) rest

/-- `emit(v)`: append to the output and advance `OUT_LEN` (R8). -/
def State.emit (s : State) (v : List Byte) : State :=
  { s with outBuf := s.outBuf.writeBytes s.outLen v, outLen := s.outLen + v.length }

/-- One piece of a command's output and then the rest of it: the first `raise` ends the command, and
no later step of it runs (R8, R213). -/
def emitThen (first rest : Except CmdError (List Byte)) : Except CmdError (List Byte) :=
  match first with
  | .error e => .error e
  | .ok out =>
    match rest with
    | .error e => .error e
    | .ok more => .ok (out ++ more)

/-- The start of a command: `STATUS <- 0x20`, `OUT_LEN <- 0` (R100). Nothing of an earlier output
survives (R13, R247), so from here no byte of `OUT` has a value. Log 6. -/
def State.begin (s : State) : State :=
  { s with status := statusBusy, outLen := 0, outBuf := [] }

/-- Completion with success: `STATUS <- 0x10` (R101). -/
def State.completeOk (s : State) : State := { s with status := statusDone 0#4 }

/-- Taking an error, the one exception entry of this machine (R213): `OUT_LEN <- 0`,
`STATUS <- 0x10 | code(E)`; the bytes of `OUT` are unspecified, so none has a value; everything else
is unchanged, and control goes nowhere. Leaving an error needs no operation: the core is idle and the
next start overwrites `STATUS` and `OUT_LEN` (R214). -/
def State.raiseError (s : State) (e : CmdError) : State :=
  { s with outLen := 0, status := statusDone e.code, outBuf := [] }

/-- The end of a command whose function answered `r`: emit and complete, or take the error
(R101, R213). -/
def State.finish (s : State) (r : Except CmdError (List Byte)) : State :=
  match r with
  | .ok out => (s.emit out).completeOk
  | .error e => s.raiseError e

/-- A whole command as one step (R11, R100): refused when `IN_LEN > N_MAX` (R16, U10); otherwise the
start, the function `f` of the command on the input, and the end. Log 10, log 16. -/
def runCommand (f : List Byte → Except CmdError (List Byte)) (s : State) : Result :=
  if s.lenFits s.inLen then .next (s.begin.finish (f s.inBytes))
  else .refused (.inLenAboveCapacity s.inLen)

/-- A reserved command code: the command starts and raises `BadCommand`; no part of `IN` is read
(R100, R103). -/
def State.badCommand (s : State) : State := s.begin.raiseError .badCommand

end Sys2Proof.Machine
end

