-- ==== Sys2Proof/Machine/Packet.lean ====
section
/-! DEFINITION. The Packet Reconstruction Engine: the command `PKTRX` (spec/43_packet.md). -/

namespace Sys2Proof.Machine

/-- The header fields the engine parses into working registers (R17, R176, R177). `P_SPORT`,
`P_ICSUM` and `P_UCSUM` are parsed and used only as words of a checksum. -/
structure PacketFields where
  icsum : Half
  src : Word
  dst : Word
  sport : Half
  dport : Half
  ulen : Half
  ucsum : Half
  deriving DecidableEq, Repr

/-- The parse of the 28 header bytes (R74, R75, R176, R177). The offsets 12 and 16 of the addresses
are general knowledge of the spec (D22, G1). Log 14. -/
def parseHeader (H : List Byte) : PacketFields where
  icsum := be16 H 10
  src := be32 H 12
  dst := be32 H 16
  sport := be16 H 20
  dport := be16 H 22
  ulen := be16 H 24
  ucsum := be16 H 26

/-- The header length in bytes, 20 and 8 (R7, R73). -/
def headerLength : Nat := 28

/-- `pseudo(H)`: the two addresses, a zero byte, the protocol constant 17, the declared length
(R76, R178). -/
def pseudoHeader (H : List Byte) : List Byte :=
  slice H 12 16 ++ slice H 16 20 ++ [0x00#8, 0x11#8] ++ slice H 24 26

/-- `IP_OK` (R186). -/
def ipOk (H : List Byte) : Bool := csum (slice H 0 20) == allOnes

/-- `UDP_OK` (R187). -/
def udpOk (H P : List Byte) : Bool := csum (pseudoHeader H ++ slice H 20 28 ++ P) == allOnes

/-- `FLT_OK`: exact equality of all 32, 32 and 16 bits (R188). -/
def fltOk (f : FilterTriple) (p : PacketFields) : Bool :=
  p.src == f.src && p.dst == f.dst && p.dport == f.dport

/-- `IP_OK and UDP_OK and FLT_OK` (R189). -/
def keepPacket (f : FilterTriple) (H P : List Byte) : Bool :=
  ipOk H && udpOk H P && fltOk f (parseHeader H)

/-- What one pass of the loop does (R172): it ends the loop with success, ends the command with an
error, or reads a complete packet, emits some bytes and moves the cursor. -/
inductive Pass where
  | done
  | fail (e : CmdError)
  | packet (out : List Byte) (next : Nat)
  deriving DecidableEq, Repr

/-- One pass of the loop of R170 with the cursor at `cur`, its tests in the order of R173, R174,
R180, R181, R189, R183. -/
def packetPass (f : FilterTriple) (B : List Byte) (cur : Nat) : Pass :=
  if cur = B.length then .done
  else if B.length - cur < headerLength then
    if cur = 0 then .fail .truncatedHeader else .done
  else
    let H := slice B cur (cur + headerLength)
    let ulen := (parseHeader H).ulen.toNat
    if ulen < 8 then .fail .badLength
    else
      let plen := ulen - 8
      if B.length - (cur + headerLength) < plen then .done
      else
        let P := slice B (cur + headerLength) (cur + headerLength + plen)
        .packet (if keepPacket f H P then P else []) (cur + headerLength + plen)

/-- The loop of R170 from a cursor. `fuel` bounds the passes: each one that goes on advances the
cursor by at least 28 (R102, R172), so the fuel `reconstruct` gives is never used up. Log 17. -/
def packetLoop (f : FilterTriple) (B : List Byte) :
    (fuel : Nat) → (cur : Nat) → Except CmdError (List Byte)
  | 0, _ => .ok []
  | fuel + 1, cur =>
    match packetPass f B cur with
    | .done => .ok []
    | .fail e => .error e
    | .packet out next => emitThen (.ok out) (packetLoop f B fuel next)

/-- `reconstruct(bytes)`: at most `floor(n/28)` packets and one last pass (R170, R172). -/
def reconstruct (f : FilterTriple) (B : List Byte) : Except CmdError (List Byte) :=
  packetLoop f B (B.length / headerLength + 1) 0

/-- `PKTRX`: the filter triple is read from the registers once, at the start (R170, R171). -/
def execPktrx (s : State) : Result := runCommand (reconstruct s.filterTriple) s

end Sys2Proof.Machine
end

