-- ==== Sys2Proof/Machine/Parity.lean ====
section
/-! DEFINITION. The Parity Reassembly Codec: the command `PARPACK` (spec/42_parity.md). -/

namespace Sys2Proof.Machine

/-- The retained sequence `K`: the correct bytes in input order (R70, R152). -/
def retained (B : List Byte) : List Byte := B.filter correctParity

/-- The payload of a parity byte, `b[7:1]` (R69, R154). -/
def payload7 (b : Byte) : BitVec 7 := b.extractLsb' 1 7

/-- The 56-bit accumulator of a group: `A <- 0; A <- (A << 7) | p_i` (R72, R155). -/
def packValue (k : List Byte) : BitVec 56 :=
  k.foldl (fun a b => (a <<< 7) ||| (payload7 b).setWidth 56) 0#56

/-- The seven bytes of the accumulator, most significant first (R71, R155). -/
def packBytes (a : BitVec 56) : List Byte :=
  [a.extractLsb' 48 8, a.extractLsb' 40 8, a.extractLsb' 32 8, a.extractLsb' 24 8,
    a.extractLsb' 16 8, a.extractLsb' 8 8, a.extractLsb' 0 8]

/-- `pack` of each group of eight, in order (R150, R157). Fewer than eight bytes left give nothing:
R153 has refused such a sequence before. -/
def packGroups : List Byte → List Byte
  | k0 :: k1 :: k2 :: k3 :: k4 :: k5 :: k6 :: k7 :: rest =>
    packBytes (packValue [k0, k1, k2, k3, k4, k5, k6, k7]) ++ packGroups rest
  | _ => []

/-- `combine(bytes)` of the Parity Reassembly Codec (R150, R153). -/
def parityCombine (B : List Byte) : Except CmdError (List Byte) :=
  if (retained B).length % 8 ≠ 0 then .error .misalignedInput
  else .ok (packGroups (retained B))

/-- `PARPACK` (R150). -/
def execParpack (s : State) : Result := runCommand parityCombine s

end Sys2Proof.Machine
end

