-- ==== Sys2Proof/Machine/Radix85.lean ====
section
/-! DEFINITION. The Radix85 Codec: the command `A85DEC` (spec/41_radix85.md). -/

namespace Sys2Proof.Machine

/-- The least index at which the bytes `x`, `y` stand side by side: a scan of adjacent-byte windows
(R121). -/
def findPair (x y : Byte) : List Byte → Option Nat
  | a :: b :: rest =>
    if a = x ∧ b = y then some 0 else (findPair x y (b :: rest)).map (· + 1)
  | _ => none

/-- `find_start(B)`: the first `<~` (R121). -/
def findStart (B : List Byte) : Option Nat := findPair 0x3C#8 0x7E#8 B

/-- `find_end(B, s)`: the first `~>` at or after the byte that follows the start delimiter
(R122). -/
def findEnd (B : List Byte) (s : Nat) : Option Nat :=
  (findPair 0x7E#8 0x3E#8 (B.drop (s + 2))).map (· + (s + 2))

/-- The symbols: the bytes 33 to 117 (R64, R128). -/
def isSymbol (b : Byte) : Bool := 33 ≤ b.toNat && b.toNat ≤ 117

/-- The whitespace bytes: exactly 10 and 13 (R127). -/
def isWhitespace (b : Byte) : Bool := b.toNat == 10 || b.toNat == 13

/-- The pad symbol `u`, 117 (R64, R67). -/
def padSymbol : Byte := 117#8

/-- The digit value of a symbol, `byte - 33` (R64). -/
def symbolDigit (c : Byte) : Nat := c.toNat - 33

/-- The value of a group, `V <- 0; V <- V*85 + d_i` (R68, R131), with no bound on its width: the
test of R132 "needs the sum to be formed in at least 33 bits". -/
def groupValue (g : List Byte) : Nat := g.foldl (fun v c => v * 85 + symbolDigit c) 0

/-- The four bytes of a group value, big-endian (R66, R131). -/
def wordBytes (v : Word) : List Byte :=
  [v.extractLsb' 24 8, v.extractLsb' 16 8, v.extractLsb' 8 8, v.extractLsb' 0 8]

/-- A group of five symbols: four bytes, or `GroupOverflow` at `2^32` or more (R131, R132). -/
def fullGroup (g : List Byte) : Except CmdError (List Byte) :=
  if groupValue g < 2 ^ 32 then .ok (wordBytes (BitVec.ofNat 32 (groupValue g)))
  else .error .groupOverflow

/-- "keeping only `(original length − 1)` leading output bytes" of a group that decodes (R133). -/
def keepLeading (n : Nat) (r : Except CmdError (List Byte)) : Except CmdError (List Byte) :=
  match r with
  | .ok out => .ok (out.take n)
  | .error e => .error e

/-- A partial group of `r` symbols: padded with `u` to five, decoded as a full group, the first
`r - 1` bytes kept (R67, R133). -/
def partialGroup (g : List Byte) : Except CmdError (List Byte) :=
  keepLeading (g.length - 1) (fullGroup (g ++ List.replicate (5 - g.length) padSymbol))

/-- The groups of the stripped sequence in order: full groups of five, then a partial group if
symbols are left (R130, R134). -/
def decodeGroups : List Byte → Except CmdError (List Byte)
  | c0 :: c1 :: c2 :: c3 :: c4 :: rest =>
    emitThen (fullGroup [c0, c1, c2, c3, c4]) (decodeGroups rest)
  | [] => .ok []
  | g => partialGroup g

/-- Steps 3 to 6 on the interior: the ASCII check, the symbol check, stripping, decoding, each over
the whole interior before the next (R125, R126, R128, R129, R136). -/
def decodeInterior (I : List Byte) : Except CmdError (List Byte) :=
  if I.any (fun b => 128 ≤ b.toNat) then .error .nonAsciiInput
  else if I.any (fun b => !(isSymbol b || isWhitespace b)) then .error .invalidSymbol
  else decodeGroups (I.filter fun b => !isWhitespace b)

/-- `decode(bytes)` of the Radix85 Codec (R120, R123). -/
def a85Decode (B : List Byte) : Except CmdError (List Byte) :=
  match findStart B with
  | none => .error .missingDelimiter
  | some s =>
    match findEnd B s with
    | none => .error .missingDelimiter
    | some e => decodeInterior (slice B (s + 2) e)

/-- `A85DEC` (R120). -/
def execA85dec (s : State) : Result := runCommand a85Decode s

end Sys2Proof.Machine
end

