-- ==== Sys2Proof/Machine/Dispatch.lean ====
section
/-! DEFINITION. The one dispatch of commands (spec/40_commands.md R100). -/

namespace Sys2Proof.Machine

def exec (i : Instr) (s : State) : Host.Outcome State Fault Refusal :=
  match i with
  | .a85dec => Sys2Proof.Machine.execA85dec s
  | .parpack => Sys2Proof.Machine.execParpack s
  | .pktrx => Sys2Proof.Machine.execPktrx s

end Sys2Proof.Machine
end

