-- ==== Sys2Proof/Machine/HostPort.lean ====
section
/-! DEFINITION. The host's accesses: registers, buffers, starting a command, reset, `MOVE`
(spec/10_state.md R14, spec/20_memory.md R47, spec/40_commands.md R100, spec/70_reset_and_hazards.md
R240, R241). -/

namespace Sys2Proof.Machine

/-- A read by the host returns a value and changes nothing else (R45, R104). Log 11. -/
def State.hostGets (s : State) (v : Nat) : State := { s with hostReads := v :: s.hostReads }

/-- One more unspecified value has been drawn (R47, U9). Log 22. -/
def State.drawn (s : State) : State := { s with draws := s.draws + 1 }

/-- A write of the code `c` to `CMD` in the atomic reading: while `BUSY = 1` it is ignored (R47,
R245); otherwise the command runs to completion, and a reserved code ends with `BadCommand` (R11,
R100, R103). -/
def writeCmd (c : Byte) (s : State) : Result :=
  if s.busy then .next s
  else
    match decodeByte c with
    | .ok i => exec i s
    | .error _ => .next s.badCommand

/-- A write of `CMD` in an implementation where a command takes time: `STATUS` becomes `0x20`,
`OUT_LEN` 0, and the command is in progress (R100, R47). Ignored while `BUSY = 1` (R245); a reserved
code "completes at once" (R77); refused when `IN_LEN > N_MAX` (R16). Log 2. -/
def startCmd (c : Byte) (during : Nat) (s : State) : Result :=
  if s.busy then .next s
  else
    match decodeByte c with
    | .error _ => .next s.badCommand
    | .ok i =>
      if s.lenFits s.inLen then
        .next { s.begin with running := some { instr := i, left := during } }
      else .refused (.inLenAboveCapacity s.inLen)

/-- A command in progress completes: `STATUS`, `OUT_LEN` and `OUT` take their final values together
(R11). Log 2, log 20. -/
def completeRunning (r : Running) (s : State) : Result := exec r.instr { s with running := none }

/-- A host write of a register that holds a value: ignored while `BUSY = 1` (R47, R246), refused
where the width cannot represent the value (R16, log 4), otherwise `put`. -/
def writeField (r : Reg) (v : Nat) (put : State → State) (s : State) : Result :=
  if s.busy then .next s
  else if s.regRepresentable r v then .next (put s)
  else .refused (.notRepresentable r v)

/-- A host write of a register (R14): `STATUS` and `OUT_LEN` ignore it, `CMD` starts a command. -/
def hostWriteReg (r : Reg) (v : Nat) (s : State) : Result :=
  match r with
  | .cmd =>
    if s.busy then .next s
    else if s.regRepresentable .cmd v then writeCmd (BitVec.ofNat 8 v) s
    else .refused (.notRepresentable .cmd v)
  | .status => .next s
  | .outLen => .next s
  | .inLen => writeField .inLen v (fun s => { s with inLen := v }) s
  | .fltSrc => writeField .fltSrc v (fun s => { s with fltSrc := BitVec.ofNat 32 v }) s
  | .fltDst => writeField .fltDst v (fun s => { s with fltDst := BitVec.ofNat 32 v }) s
  | .fltDport => writeField .fltDport v (fun s => { s with fltDport := BitVec.ofNat 16 v }) s

/-- A host read of a register (R14): `CMD` reads 0, and `OUT_LEN` while `BUSY = 1` reads an
unspecified value (R47). Log 7, log 21. -/
def hostReadReg (r : Reg) (s : State) : State :=
  match r with
  | .cmd => s.hostGets 0
  | .status => s.hostGets s.status.toNat
  | .inLen => s.hostGets s.inLen
  | .outLen =>
    if s.busy then (s.hostGets (s.cutToLength (Config.busyOutLen s.draws))).drawn
    else s.hostGets s.outLen
  | .fltSrc => s.hostGets s.fltSrc.toNat
  | .fltDst => s.hostGets s.fltDst.toNat
  | .fltDport => s.hostGets s.fltDport.toNat

/-- A host write of a byte of `IN` (R12, R40), ignored while `BUSY = 1` (R47, R246). Log 9. -/
def hostWriteIn (a : Nat) (b : Byte) (s : State) : Result :=
  if s.addrExists a then
    if s.busy then .next s else .next { s with inBuf := s.inBuf.write a b }
  else .fault (.inAddress a)

/-- A host read of a byte of `IN` (R12, R40, R45). Log 5, log 9. -/
def hostReadIn (a : Nat) (s : State) : Result :=
  if s.addrExists a then .next (s.hostGets (s.inByte a).toNat) else .fault (.inAddress a)

/-- A host read of a byte of `OUT`: an unspecified value while `BUSY = 1` (R47, R246); the byte below
`OUT_LEN`; refused at and past it (R13, U7). After a reset and before any command U8 says only `any
value` for `OUT` (R240); refusing the read then too is the model's choice. Log 6, log 7, log 9. -/
def hostReadOut (a : Nat) (s : State) : Result :=
  if s.addrExists a then
    if s.busy then .next (s.hostGets (Config.unspecifiedOut s.draws a).toNat).drawn
    else if a < s.outLen then .next (s.hostGets (s.outByte a).toNat)
    else .refused (.outPastLength a)
  else .fault (.outAddress a)

/-- Reset: the state of R240, abandoning a command in progress (R241). The machine's parameter and
the host's own side stay; the contents of `IN` are unspecified anew. Log 13. -/
def State.applyReset (s : State) : State :=
  { State.reset with
    nMax := s.nMax, pending := s.pending, hostReads := s.hostReads,
    inEpoch := s.inEpoch + 1, draws := s.draws }

/-- `MOVE`: the host copies `OUT[0 .. OUT_LEN)` to `IN[0 ..)` and `OUT_LEN` to `IN_LEN` (R82, R105,
R243); while `BUSY = 1` its writes are ignored (R47). Log 12. -/
def hostMove (s : State) : Result :=
  if s.busy then .next s
  else if s.lenFits s.outLen then
    .next { s with inBuf := s.inBuf.writeBytes 0 s.outBytes, inLen := s.outLen }
  else .fault (.outAddress (s.outLen - 1))

/-- One host access. -/
def hostServe (a : HostAccess) (s : State) : Result :=
  match a with
  | .writeReg r v => hostWriteReg r v s
  | .startCmd c during => startCmd c during s
  | .readReg r => .next (hostReadReg r s)
  | .writeIn addr b => hostWriteIn addr b s
  | .readIn addr => hostReadIn addr s
  | .readOut addr => hostReadOut addr s
  | .reset => .next s.applyReset
  | .move => hostMove s

/-- A command in progress that still has host accesses inside its run serves the next one; with none
left, or none to serve, it completes (R47, R102). Log 2. -/
def stepRunning (r : Running) (s : State) : Result :=
  match r.left, s.pending with
  | left + 1, a :: rest =>
    hostServe a { s with pending := rest, running := some { r with left := left } }
  | _, _ => completeRunning r s

/-- An idle core serves the next host access, and waits when there is none (R240). Log 19. -/
def stepIdle (s : State) : Result :=
  match s.pending with
  | [] => .next s
  | a :: rest => hostServe a { s with pending := rest }

/-- The host's next access is a write of the byte `c` to `CMD`, and the core is idle to take it. -/
def State.withCommandByte (s : State) (c : Byte) : State :=
  { s with
    pending := .writeReg .cmd c.toNat :: s.pending
    running := none
    status := s.status &&& 0xDF#8 }

/-- `LOAD IN, <bytes>`: the bytes to `IN[0 .. n)` and `n` to `IN_LEN` (R82, R242). -/
def scriptLoad (bs : List Byte) : List HostAccess :=
  bs.zipIdx.map (fun p => .writeIn p.2 p.1) ++ [.writeReg .inLen bs.length]

/-- `SET <REG>, <value>` (R82). -/
def scriptSet (r : Reg) (v : Nat) : List HostAccess := [.writeReg r v]

/-- `A85DEC` / `PARPACK` / `PKTRX` as a script line: write the code to `CMD` (R82). -/
def scriptCommand (i : Instr) : List HostAccess := [.writeReg .cmd (opcode i).toNat]

/-- `CMD <- <value>` (R82). -/
def scriptRaw (c : Byte) : List HostAccess := [.writeReg .cmd c.toNat]

/-- `EXPECT OUT, <bytes>`: an assertion on the state (R82). Log 24. -/
def expectOut (s : State) (bs : List Byte) : Bool := s.outBytes == bs

/-- `EXPECT STATUS, <value>` and `EXPECT OUT_LEN, <value>` (R82). Log 24. -/
def expectStatus (s : State) (status : Byte) (outLen : Nat) : Bool :=
  s.status == status && s.outLen == outLen

end Sys2Proof.Machine
end

