-- ==== Sys2Proof/Machine/Step.lean ====
section
/-! DEFINITION. One step of the machine: one host access, a whole command where it starts one
(spec/10_state.md R11, spec/20_memory.md R46). -/

namespace Sys2Proof.Machine

/-- One step: a command in progress goes on, or the idle core serves the host's next access
(R11, R46). Log 1. -/
def step (s : State) : Host.Outcome State Fault Refusal :=
  match s.running with
  | some r => stepRunning r s
  | none => stepIdle s

/-- `s` with the host about to write the table word's byte to `CMD`, on an idle core: there is no
instruction fetch (R2, R49), and "the command code is taken from the value written to `CMD` at the
moment of the write" (R49). Log 1. -/
def State.withFetchWord (s : State) (nbits w : Nat) : State :=
  s.withCommandByte (tableByte nbits w)

end Sys2Proof.Machine
end

