-- ==== Sys2Proof/Safety.lean ====
section
/-! DEFINITION. What a safe run is: the invariant of the machine, and what the host owes it
(spec/70_reset_and_hazards.md R242 to R247). -/

namespace Sys2Proof.Machine

/-- The states a run can reach: the memories canonical and inside the buffers, `STATUS` one of the
values R15 names, `BUSY` set exactly while a command is in progress, and `OUT` holding exactly the
bytes below `OUT_LEN`. -/
structure StateInv (s : State) : Prop where
  /-- `IN` is in canonical form. -/
  inCanonical : s.inBuf.wf
  /-- `OUT` is in canonical form. -/
  outCanonical : s.outBuf.wf
  /-- Every byte of `IN` that holds a value has an address that exists (R12, R40). -/
  inExists : ∀ c ∈ s.inBuf, s.addrExists c.1 = true
  /-- The bytes of `OUT` that hold a value are those below `OUT_LEN` (R13). -/
  outListed : ∀ a, (s.outBuf.read a).isSome = true ↔ a < s.outLen
  /-- `OUT_LEN` is at most `N_MAX` (R14). -/
  outFits : s.lenFits s.outLen = true
  /-- `IN_LEN` holds a value its width can represent (R16). -/
  inLenRepresentable : s.lenRepresentable s.inLen = true
  /-- `STATUS` is idle, busy, or `0x10 | CODE` with a code of 0 to 8 (R15, R62). -/
  statusLegal : s.status = 0x00#8 ∨ s.status = statusBusy ∨
    ∃ c : BitVec 4, c.toNat ≤ 8 ∧ s.status = statusDone c
  /-- `BUSY = 1` exactly while a command is in progress (R15). -/
  busyRunning : s.busy = s.running.isSome
  /-- Only a command that ended with success has output (R14, R213, R240). -/
  outEmptyUnlessOk : s.status ≠ statusDone 0#4 → s.outLen = 0
  /-- A command in progress was started with `IN_LEN` at most `N_MAX` (R16). -/
  runningFits : s.running.isSome = true → s.lenFits s.inLen = true

/-- The accesses that respect what the host owes the machine: no write while `BUSY = 1` and no read
of `OUT` or `OUT_LEN` then (R245, R246), `OUT` read below `OUT_LEN` only (R13, R243), values that are
legal for the register (R14, R16), addresses that exist (R40). -/
def hostLegal (s : State) : HostAccess → Bool
  | .writeReg .cmd v => !s.busy && s.regRepresentable .cmd v && s.lenFits s.inLen
  | .writeReg .status _ => true
  | .writeReg .outLen _ => true
  | .writeReg .inLen v => !s.busy && s.lenFits v
  | .writeReg .fltSrc v => !s.busy && s.regRepresentable .fltSrc v
  | .writeReg .fltDst v => !s.busy && s.regRepresentable .fltDst v
  | .writeReg .fltDport v => !s.busy && s.regRepresentable .fltDport v
  | .startCmd _ _ => !s.busy && s.lenFits s.inLen
  | .readReg .outLen => !s.busy
  | .readReg _ => true
  | .writeIn a _ => !s.busy && s.addrExists a
  | .readIn a => s.addrExists a
  | .readOut a => !s.busy && s.addrExists a && a < s.outLen
  | .reset => true
  | .move => !s.busy

/-- The host's next access, if there is one, is legal. -/
def hostNextLegal (s : State) : Prop := ∀ a ∈ s.pending.head?, hostLegal s a = true

end Sys2Proof.Machine
end

