-- ==== Sys2Proof/Certificates/Slice0/Obligations.lean ====
section
/-! DEFINITION. The statements for the provers, and the words they are stated in: the rules of spec/
written over the input as a sequence, without the model's own functions where that is possible. -/

namespace Sys2Proof.Certificates

open Sys2Proof.Machine

/-! ### Words for the radix-85 rules -/

/-- The bytes `x`, `y` stand at `i` and `i+1` of `B`. -/
def PairAt (B : List Byte) (x y : Byte) (i : Nat) : Prop := B[i]? = some x ∧ B[i + 1]? = some y

/-- `p` is the least index with `B[p] = 0x3C` and `B[p+1] = 0x7E` (R121). -/
def FirstStart (B : List Byte) (p : Nat) : Prop :=
  PairAt B 0x3C#8 0x7E#8 p ∧ ∀ j, j < p → ¬ PairAt B 0x3C#8 0x7E#8 j

/-- `e` is the least index with `p+2 <= e`, `B[e] = 0x7E` and `B[e+1] = 0x3E` (R122). -/
def FirstEnd (B : List Byte) (p e : Nat) : Prop :=
  p + 2 ≤ e ∧ PairAt B 0x7E#8 0x3E#8 e ∧ ∀ j, p + 2 ≤ j → j < e → ¬ PairAt B 0x7E#8 0x3E#8 j

/-- `33 <= b <= 117` (R64). -/
def SymbolByte (b : Byte) : Prop := 33 ≤ b.toNat ∧ b.toNat ≤ 117

/-- `b = 10` or `b = 13` (R64). -/
def BlankByte (b : Byte) : Prop := b.toNat = 10 ∨ b.toNat = 13

/-- `SYM`: the interior without its bytes 10 and 13 (R65, R129). -/
def stripped (I : List Byte) : List Byte := I.filter fun b => b.toNat != 10 && b.toNat != 13

/-- Group `g` of the stripped sequence: five symbols, fewer for a last partial group (R65, R130). -/
def groupAt (S : List Byte) (g : Nat) : List Byte := (S.drop (5 * g)).take 5

/-- The number of groups, a last partial one counted (R65, R130). -/
def groupCount (S : List Byte) : Nat := (S.length + 4) / 5

/-- The digit of symbol `i` of a group, the pad symbol 117 where the group is short (R67, R133). -/
def paddedDigit (g : List Byte) (i : Nat) : Nat := (g.getD i 117#8).toNat - 33

/-- `V = d0*52200625 + d1*614125 + d2*7225 + d3*85 + d4`, padded (R68, R131, R133). -/
def paddedValue (g : List Byte) : Nat :=
  paddedDigit g 0 * 52200625 + paddedDigit g 1 * 614125 + paddedDigit g 2 * 7225 +
    paddedDigit g 3 * 85 + paddedDigit g 4

/-- The bytes a group yields: of `V[31:24], V[23:16], V[15:8], V[7:0]` one fewer than it has symbols
(R66, R67). -/
def groupOutput (g : List Byte) : List Byte :=
  ([paddedValue g / 2 ^ 24, paddedValue g / 2 ^ 16, paddedValue g / 2 ^ 8, paddedValue g].map
    (BitVec.ofNat 8)).take (g.length - 1)

/-- The interior holds only symbols and whitespace. -/
def CleanInterior (I : List Byte) : Prop := ∀ b ∈ I, SymbolByte b ∨ BlankByte b

/-- Some group has a value of `2^32` or more (R132). -/
def SomeGroupOverflows (S : List Byte) : Prop :=
  ∃ g, g < groupCount S ∧ 2 ^ 32 ≤ paddedValue (groupAt S g)

/-- The inverse of `groupOutput`: the symbols of one to four bytes (the encoder is no part of the
hardware, R6). -/
def encodeGroup (b : List Byte) : List Byte :=
  let v := (b.getD 0 0#8).toNat * 2 ^ 24 + (b.getD 1 0#8).toNat * 2 ^ 16 +
    (b.getD 2 0#8).toNat * 2 ^ 8 + (b.getD 3 0#8).toNat
  ([v / 52200625 % 85, v / 614125 % 85, v / 7225 % 85, v / 85 % 85, v % 85].map
    fun d => BitVec.ofNat 8 (d + 33)).take (b.length + 1)

/-- The symbols that encode a byte sequence, four bytes to a group. -/
def encodeRadix85 : List Byte → List Byte
  | b0 :: b1 :: b2 :: b3 :: rest => encodeGroup [b0, b1, b2, b3] ++ encodeRadix85 rest
  | [] => []
  | b => encodeGroup b

/-! ### Words for the parity rules -/

/-- `popcount` of a byte (R8). -/
def popcount (b : Byte) : Nat := (List.range 8).countP fun k => b.getLsbD k

/-- The bits of a byte, most significant first (R43). -/
def byteBits (b : Byte) : List Bool := [7, 6, 5, 4, 3, 2, 1, 0].map fun k => b.getLsbD k

/-- The seven payload bits of a parity byte, most significant first (R69). -/
def payloadBits (b : Byte) : List Bool := [7, 6, 5, 4, 3, 2, 1].map fun k => b.getLsbD k

/-- `pflag = parity`: the low bit is the exclusive-or of the seven payload bits (R69, R151). -/
def flagMatches (b : Byte) : Bool := b.getLsbD 0 == (payloadBits b).foldl xor false

/-- The retained sequence: the correct bytes, in input order (R70, R152). -/
def keptBytes (B : List Byte) : List Byte := B.filter flagMatches

/-! ### Words for the packet rules -/

/-- The sum of the 16-bit big-endian words of a sequence, as a natural number: a byte of even index
is a high half, a byte of odd index a low half (R42, R185). -/
def wordSum (S : List Byte) : Nat :=
  (S.zipIdx.map fun p => if p.2 % 2 = 0 then 256 * p.1.toNat else p.1.toNat).sum

/-- The declared length of the packet that starts a sequence (R75). -/
def declaredLength (p : List Byte) : Nat := (be16 p 24).toNat

/-- A whole packet: its length is `20 + declared length`, and it has its 28 header bytes (R73). -/
def CompletePacket (p : List Byte) : Prop := 28 ≤ p.length ∧ p.length = 20 + declaredLength p

/-- The bytes the UDP checksum is taken over: pseudo-header, UDP header, payload (R178, R187). -/
def udpSummed (p : List Byte) : List Byte :=
  (p.drop 12).take 4 ++ (p.drop 16).take 4 ++ [0x00#8, 0x11#8] ++ (p.drop 24).take 2 ++ p.drop 20

/-- "a packet is kept iff both checksums are valid AND its source address, destination address, and
destination port match" (R186 to R189); a checksum is valid iff the sum of the words is a multiple
of 65535, which the statement `ChecksumValidIffSumIsMultiple` ties to the fold. -/
def keptPacket (f : FilterTriple) (p : List Byte) : Bool :=
  wordSum (p.take 20) % 65535 == 0 && wordSum (udpSummed p) % 65535 == 0 &&
    be32 p 12 == f.src && be32 p 16 == f.dst && be16 p 22 == f.dport

/-- What is left of a stream after its last complete packet and is no error: nothing, or too few
bytes for a header after at least one packet, or a packet whose payload is incomplete (R173, R174,
R181). -/
def BenignTail (packets : List (List Byte)) (r : List Byte) : Prop :=
  r = [] ∨ (0 < r.length ∧ r.length < 28 ∧ packets ≠ []) ∨
    (28 ≤ r.length ∧ 8 ≤ declaredLength r ∧ r.length < 20 + declaredLength r)

/-! ### Words for the state -/

/-- Everything but `STATUS`, `OUT_LEN` and `OUT` is the same in two states. -/
def SameBesideOutcome (s t : State) : Prop :=
  t.inBuf = s.inBuf ∧ t.inLen = s.inLen ∧ t.fltSrc = s.fltSrc ∧ t.fltDst = s.fltDst ∧
    t.fltDport = s.fltDport ∧ t.nMax = s.nMax ∧ t.running = s.running ∧ t.pending = s.pending ∧
    t.hostReads = s.hostReads ∧ t.inEpoch = s.inEpoch ∧ t.draws = s.draws

/-- A command ended with success and the output `out` (R101). -/
def EndsOk (s t : State) (out : List Byte) : Prop :=
  t.status = 0x10#8 ∧ t.outLen = out.length ∧ t.outBytes = out ∧ SameBesideOutcome s t

/-- A command ended with the error of a status byte: no output, and no byte of `OUT` with a value
(R213). -/
def EndsInError (s t : State) (status : Byte) : Prop :=
  t.status = status ∧ t.outLen = 0 ∧ t.outBuf = [] ∧ SameBesideOutcome s t

/-- An access whose address, if it has one, exists, and that is no reset. -/
def ServedWithoutReset (s : State) : HostAccess → Prop
  | .writeIn a _ => s.addrExists a = true
  | .readIn a => s.addrExists a = true
  | .readOut a => s.addrExists a = true
  | .reset => False
  | _ => True

/-- The core is idle: nothing in progress and `BUSY = 0`. -/
def Idle (s : State) : Prop := s.running = none ∧ s.busy = false

end Sys2Proof.Certificates

open Sys2Proof Sys2Proof.Machine Sys2Proof.Certificates

/-! ### Encoding and dispatch -/

/-- R60: the three codes, written out from the table, decode to their commands. -/
def Obligations.TableWordsDecode : Prop :=
  decodeTableWord 8 0b00000001 = some .a85dec ∧ decodeTableWord 8 0b00000010 = some .parpack ∧
    decodeTableWord 8 0b00000011 = some .pktrx ∧
    decode [0x01#8, 0x03#8] = .ok (.a85dec, [0x03#8]) ∧ decodeTableWord 8 0b00000000 = none ∧
    decodeTableWord 8 0b00000100 = none ∧ decodeTableWord 8 0b11111111 = none

/-- Decoding an encoded command gives it back with the bytes after it (R60). -/
def Obligations.DecodeOfEncode : Prop :=
  ∀ (i : Instr) (rest : List Byte), i.wellFormed = true →
    decode (encode i ++ rest) = .ok (i, rest)

/-- Bytes that decode to a command are its encoding and the rest: no code has two meanings (R60,
R77). -/
def Obligations.DecodeOnlyEncodings : Prop :=
  ∀ (bs rest : List Byte) (i : Instr), decode bs = .ok (i, rest) → bs = encode i ++ rest

/-- R77: the reserved codes are exactly `0x00` and `0x04` to `0xFF`, and the decoder names them. -/
def Obligations.ReservedCodesRejected : Prop :=
  ∀ c : Byte, decodeByte c = .error (.reserved c) ↔
    (c.toNat = 0 ∨ (4 ≤ c.toNat ∧ c.toNat ≤ 255))

/-- A step runs the decoded command: an idle core with a write of a command's code to `CMD` next
takes the whole command as that step (R11, R100). The queue of host accesses and the one-step write
are the model's choice (logs 1 and 2). -/
def Obligations.StepRunsWrittenCommand : Prop :=
  ∀ (s : State) (c : Byte) (i : Instr) (rest : List HostAccess), Idle s →
    s.pending = .writeReg .cmd c.toNat :: rest → decode [c] = .ok (i, []) → i.wellFormed = true →
    step s = exec i { s with pending := rest }

/-- `withFetchWord` places a command so that the very next step runs it. That the word stands for
the host's write to `CMD` is the model's choice (log 1). -/
def Obligations.StepRunsFetchWord : Prop :=
  ∀ (s : State) (nbits w : Nat) (i : Instr), decodeTableWord nbits w = some i →
    step (s.withFetchWord nbits w) =
      exec i { s with running := none, status := s.status &&& 0xDF#8 }

/-- R77, R103: a reserved code raises `BadCommand`: `STATUS = 0x18`, `OUT_LEN = 0`, `IN`, `IN_LEN` and
the filter registers unchanged, whatever `IN` and `IN_LEN` hold. That it does so with `IN_LEN` above
`N_MAX` too, where R16 has a started command refused, is the model's choice (log 10); so are the queue
of host accesses (log 1), the write as one step (log 2) and the form of an `OUT` without values
(log 6). -/
def Obligations.ReservedCodeRaisesBadCommand : Prop :=
  ∀ (s : State) (c : Byte) (rest : List HostAccess), Idle s →
    s.pending = .writeReg .cmd c.toNat :: rest → (c.toNat = 0 ∨ 4 ≤ c.toNat) →
    ∃ t, step s = .next t ∧ EndsInError { s with pending := rest } t 0x18#8

/-- With nothing asked of it the core waits, and nothing changes (R240; the model's reading of
"waits", log 19). -/
def Obligations.IdleCoreWaits : Prop :=
  ∀ s : State, s.running = none → s.pending = [] → step s = .next s

/-! ### Every command: completion, frame, purity -/

/-- R16 and R102: a command answers a next state exactly when `IN_LEN` is at most `N_MAX`, and is
refused by name above it. `N_MAX` as a field and the name of the refusal are the model's choice
(logs 3 and 10). -/
def Obligations.CommandAnswersWithinCapacity : Prop :=
  ∀ (i : Instr) (s : State),
    (s.lenFits s.inLen = true → ∃ t, exec i s = .next t ∧ t.busy = false ∧ t.done = true) ∧
    (s.lenFits s.inLen = false → exec i s = .refused (.inLenAboveCapacity s.inLen))

/-- The frame of all three commands (R12, R13, R101, R213): every register but `STATUS` and
`OUT_LEN`, every byte of `IN` and every other field is unchanged; `STATUS` is `0x10 | CODE` with a
code of 0 to 8; the bytes of `OUT` with a value are exactly those below `OUT_LEN`. -/
def Obligations.CommandFrame : Prop :=
  ∀ (i : Instr) (s t : State), exec i s = .next t →
    SameBesideOutcome s t ∧ (∀ a, t.inByte a = s.inByte a) ∧
    (∃ c : BitVec 4, c.toNat ≤ 8 ∧ t.status = 0x10#8 ||| c.setWidth 8) ∧
    (∀ a, (t.outBuf.read a).isSome = true ↔ a < t.outLen)

/-- R13, R135, R158, R190: no command's output is longer than its input, so the output fits
`OUT`. -/
def Obligations.OutputNeverLongerThanInput : Prop :=
  ∀ (i : Instr) (s t : State), exec i s = .next t →
    t.outLen ≤ s.inLen ∧ t.lenFits t.outLen = true

/-- R106: `STATUS.CODE`, `OUT_LEN` and the output are a function of the input bytes and, for `PKTRX`
alone, of the filter triple. -/
def Obligations.CommandsArePure : Prop :=
  ∀ (i : Instr) (s u t v : State), s.inBytes = u.inBytes →
    (i = .pktrx → s.filterTriple = u.filterTriple) → exec i s = .next t → exec i u = .next v →
    t.status = v.status ∧ t.outLen = v.outLen ∧ t.outBuf = v.outBuf

/-- R214: an earlier outcome leaves nothing behind: a command does the same from any `STATUS`,
`OUT_LEN` and `OUT`. `exec` does not test `BUSY`; the write to `CMD` does (log 16). -/
def Obligations.EarlierOutcomeLeavesNothing : Prop :=
  ∀ (i : Instr) (s : State) (st : Byte) (n : Nat) (m : Memory),
    exec i { s with status := st, outLen := n, outBuf := m } = exec i s

/-- R62 (and test vector V54): the status byte of every error. -/
def Obligations.ErrorStatusBytes : Prop :=
  ∀ s : State, (s.raiseError .missingDelimiter).status = 0x11#8 ∧
    (s.raiseError .nonAsciiInput).status = 0x12#8 ∧
    (s.raiseError .invalidSymbol).status = 0x13#8 ∧
    (s.raiseError .groupOverflow).status = 0x14#8 ∧
    (s.raiseError .misalignedInput).status = 0x15#8 ∧
    (s.raiseError .truncatedHeader).status = 0x16#8 ∧
    (s.raiseError .badLength).status = 0x17#8 ∧ (s.raiseError .badCommand).status = 0x18#8

/-- R213: taking an error. That no byte of `OUT` has a value then is the model's form of unspecified
(log 6). -/
def Obligations.ErrorEntry : Prop :=
  ∀ (s : State) (e : CmdError), EndsInError s (s.raiseError e) (0x10#8 ||| e.code.setWidth 8)

/-! ### A85DEC -/

/-- R136: the errors in their order of precedence: no envelope (no `<~`, or no `~>` at or after the
byte that follows the first `<~`, R121, R122), then a byte of 128 or more anywhere in the interior, then
a byte that is no symbol and no whitespace, then a group of `2^32` or more; each ends the command with
its one error, wherever its cause stands. -/
def Obligations.A85decErrorPrecedence : Prop :=
  ∀ s : State, s.lenFits s.inLen = true →
    ((¬ ∃ p e, FirstStart s.inBytes p ∧ FirstEnd s.inBytes p e) →
      ∃ t, exec .a85dec s = .next t ∧ EndsInError s t 0x11#8) ∧
    ∀ (p e : Nat) (I : List Byte), FirstStart s.inBytes p → FirstEnd s.inBytes p e →
      I = (s.inBytes.take e).drop (p + 2) →
      ((∃ b ∈ I, 128 ≤ b.toNat) → ∃ t, exec .a85dec s = .next t ∧ EndsInError s t 0x12#8) ∧
      ((∀ b ∈ I, b.toNat < 128) → (∃ b ∈ I, ¬ SymbolByte b ∧ ¬ BlankByte b) →
        ∃ t, exec .a85dec s = .next t ∧ EndsInError s t 0x13#8) ∧
      (CleanInterior I → SomeGroupOverflows (stripped I) →
        ∃ t, exec .a85dec s = .next t ∧ EndsInError s t 0x14#8)

/-- R130, R131, R133, R134, R135: the success case: the output of every group in order, the last
partial group padded and cut, and nothing else. -/
def Obligations.A85decDecodesGroups : Prop :=
  ∀ (s : State) (p e : Nat) (I : List Byte), s.lenFits s.inLen = true →
    FirstStart s.inBytes p → FirstEnd s.inBytes p e → I = (s.inBytes.take e).drop (p + 2) →
    CleanInterior I → ¬ SomeGroupOverflows (stripped I) →
    ∃ t, exec .a85dec s = .next t ∧
      EndsOk s t ((List.range (groupCount (stripped I))).flatMap fun g =>
        groupOutput (groupAt (stripped I) g)) ∧
      t.outLen = 4 * ((stripped I).length / 5) + ((stripped I).length % 5 - 1)

/-- The round trip of the radix-85 encoding: an envelope around the encoding of any byte sequence,
with any bytes before it that hold no earlier `<~`, any bytes after it and line ends anywhere in
its interior, decodes to that sequence. -/
def Obligations.A85decInvertsEncoding : Prop :=
  ∀ (s : State) (before interior after bytes : List Byte), s.lenFits s.inLen = true →
    s.inBytes = before ++ [0x3C#8, 0x7E#8] ++ interior ++ [0x7E#8, 0x3E#8] ++ after →
    (∀ j, ¬ PairAt before 0x3C#8 0x7E#8 j) → stripped interior = encodeRadix85 bytes →
    ∃ t, exec .a85dec s = .next t ∧ EndsOk s t bytes

/-! ### PARPACK -/

/-- R151: the parity test: a byte is correct iff its flag is the exclusive-or of its seven payload
bits, and, as the spec derives, iff its `popcount` is even. -/
def Obligations.CorrectParityIsEvenPopcount : Prop :=
  ∀ b : Byte, correctParity b = flagMatches b ∧ (correctParity b = true ↔ popcount b % 2 = 0)

/-- R153, R158, R159: `MisalignedInput` when the retained count is no multiple of 8, otherwise
success with seven eighths of the count. -/
def Obligations.ParpackOutcome : Prop :=
  ∀ s : State, s.lenFits s.inLen = true →
    ((keptBytes s.inBytes).length % 8 ≠ 0 →
      ∃ t, exec .parpack s = .next t ∧ EndsInError s t 0x15#8) ∧
    ((keptBytes s.inBytes).length % 8 = 0 →
      ∃ t out, exec .parpack s = .next t ∧ EndsOk s t out ∧
        t.outLen = 7 * (keptBytes s.inBytes).length / 8)

/-- R156: no bit is lost or invented: the bits of the output are the payload bits of the retained
bytes, in order, and nothing else. -/
def Obligations.ParpackKeepsPayloadBits : Prop :=
  ∀ s : State, s.lenFits s.inLen = true → (keptBytes s.inBytes).length % 8 = 0 →
    ∃ t out, exec .parpack s = .next t ∧ EndsOk s t out ∧
      out.flatMap byteBits = (keptBytes s.inBytes).flatMap payloadBits

/-- R152: an incorrect byte contributes nothing: two inputs with the same retained sequence have the
same outcome. -/
def Obligations.ParpackDropsIncorrectBytes : Prop :=
  ∀ s u t v : State, keptBytes s.inBytes = keptBytes u.inBytes → exec .parpack s = .next t →
    exec .parpack u = .next v → t.status = v.status ∧ t.outLen = v.outLen ∧ t.outBuf = v.outBuf

/-! ### PKTRX -/

/-- R184: the fold is the low half of the sum plus its carry; it is commutative and associative, and
the seed leaves every non-zero word as it is. -/
def Obligations.FoldIsOnesComplementAddition : Prop :=
  (∀ a b : Half, (fold16 a b).toNat = (a.toNat + b.toNat) % 65536 + (a.toNat + b.toNat) / 65536) ∧
    (∀ a b : Half, fold16 a b = fold16 b a) ∧
    (∀ a b c : Half, fold16 (fold16 a b) c = fold16 a (fold16 b c)) ∧
    (∀ w : Half, w ≠ 0#16 → fold16 0xFFFF#16 w = w) ∧ fold16 0xFFFF#16 0x0000#16 = 0xFFFF#16

/-- R185: a sequence folds to the sentinel iff the sum of its words is a multiple of 65535, which
takes in the sequence whose words are all 0. -/
def Obligations.ChecksumValidIffSumIsMultiple : Prop :=
  ∀ S : List Byte, csum S = 0xFFFF#16 ↔ wordSum S % 65535 = 0

/-- R173, R174, R192: the outcomes of `PKTRX`: `TruncatedHeader` for exactly 1 to 27 bytes of input,
success with no output for an empty input, and otherwise success or `BadLength`. -/
def Obligations.PktrxOutcomes : Prop :=
  ∀ s : State, s.lenFits s.inLen = true →
    (s.inLen = 0 → ∃ t, exec .pktrx s = .next t ∧ EndsOk s t []) ∧
    (0 < s.inLen → s.inLen < 28 → ∃ t, exec .pktrx s = .next t ∧ EndsInError s t 0x16#8) ∧
    (28 ≤ s.inLen → ∃ t, exec .pktrx s = .next t ∧
      ((∃ out, EndsOk s t out) ∨ EndsInError s t 0x17#8))

/-- R189: an input that is one complete packet: its payload iff both checksums are valid and the
triple matches, else nothing; success either way. The address offsets 12 and 16 are the spec's
general knowledge (log 14). -/
def Obligations.PktrxSinglePacket : Prop :=
  ∀ s : State, s.lenFits s.inLen = true → CompletePacket s.inBytes →
    ∃ t, exec .pktrx s = .next t ∧
      EndsOk s t (if keptPacket s.filterTriple s.inBytes then s.inBytes.drop 28 else [])

/-- R172 to R183, R190: a stream of complete packets and a benign tail yields the payloads of the
kept packets in stream order, every packet skipped by its declared length. The address offsets 12
and 16 are the spec's general knowledge (log 14). -/
def Obligations.PktrxConcatenatesKeptPayloads : Prop :=
  ∀ (s : State) (packets : List (List Byte)) (tail : List Byte), s.lenFits s.inLen = true →
    s.inBytes = packets.flatten ++ tail → (∀ p ∈ packets, CompletePacket p) →
    BenignTail packets tail →
    ∃ t, exec .pktrx s = .next t ∧
      EndsOk s t ((packets.filter (keptPacket s.filterTriple)).flatMap (·.drop 28))

/-- R180, R191: a declared length below 8, at the first packet or after complete ones, ends the
command with `BadLength`, and nothing gathered before is delivered. -/
def Obligations.PktrxBadLength : Prop :=
  ∀ (s : State) (packets : List (List Byte)) (tail : List Byte), s.lenFits s.inLen = true →
    s.inBytes = packets.flatten ++ tail → (∀ p ∈ packets, CompletePacket p) → 28 ≤ tail.length →
    declaredLength tail < 8 → ∃ t, exec .pktrx s = .next t ∧ EndsInError s t 0x17#8

/-! ### Reset -/

/-- The values of R240's table. That no byte of `IN` or `OUT` is listed is the model's form of their
unspecified contents (logs 5 and 6), and that no command is in progress its form of an idle core
(log 2); how an idle core waits is `IdleCoreWaits`. -/
def Obligations.ResetLeavesSpecifiedValues : Prop :=
  State.reset.status = 0x00#8 ∧ State.reset.inLen = 0 ∧ State.reset.outLen = 0 ∧
    State.reset.fltSrc = 0x00000000#32 ∧ State.reset.fltDst = 0x00000000#32 ∧
    State.reset.fltDport = 0x0000#16 ∧ (∀ a, State.reset.inBuf.read a = none) ∧
    (∀ a, State.reset.outBuf.read a = none) ∧ State.reset.running = none ∧
    (hostReadReg .cmd State.reset).hostReads.head? = some 0

/-- R241: a reset, during a command too, abandons it and gives the state of R240. That the parameter
and the host's own side stay is the model's choice (log 13). -/
def Obligations.ResetAccessAbandonsCommand : Prop :=
  ∀ s : State, ∃ t, hostServe .reset s = .next t ∧ t.status = 0x00#8 ∧ t.inLen = 0 ∧
    t.outLen = 0 ∧ t.fltSrc = 0#32 ∧ t.fltDst = 0#32 ∧ t.fltDport = 0#16 ∧ t.inBuf = [] ∧
    t.outBuf = [] ∧ t.running = none ∧ t.nMax = s.nMax ∧ t.pending = s.pending ∧
    t.hostReads = s.hostReads

/-- R242: a command straight after reset sees an empty input. -/
def Obligations.CommandsStraightAfterReset : Prop :=
  (∃ t, exec .a85dec State.reset = .next t ∧ EndsInError State.reset t 0x11#8) ∧
    (∃ t, exec .parpack State.reset = .next t ∧ EndsOk State.reset t []) ∧
    (∃ t, exec .pktrx State.reset = .next t ∧ EndsOk State.reset t [])

/-! ### The host's accesses -/

/-- R14: host writes of registers on a core that is not busy: the writable ones take a value their
width represents and are refused a wider one (R16 for `IN_LEN`, the model's choice for the others,
log 4), `STATUS` and `OUT_LEN` ignore every write. -/
def Obligations.HostRegisterWrites : Prop :=
  ∀ s : State, s.busy = false →
    (∀ v, hostServe (.writeReg .status v) s = .next s) ∧
    (∀ v, hostServe (.writeReg .outLen v) s = .next s) ∧
    (∀ v, s.lenRepresentable v = true →
      hostServe (.writeReg .inLen v) s = .next { s with inLen := v }) ∧
    (∀ v : Word, hostServe (.writeReg .fltSrc v.toNat) s = .next { s with fltSrc := v }) ∧
    (∀ v : Word, hostServe (.writeReg .fltDst v.toNat) s = .next { s with fltDst := v }) ∧
    (∀ v : Half, hostServe (.writeReg .fltDport v.toNat) s = .next { s with fltDport := v }) ∧
    (∀ r v, r ≠ .status → r ≠ .outLen → s.regRepresentable r v = false →
      hostServe (.writeReg r v) s = .refused (.notRepresentable r v))

/-- R14, R104: host reads of registers on a core that is not busy: the value, and no side effect.
The record of the values read is the model's own (log 11). -/
def Obligations.HostRegisterReads : Prop :=
  ∀ s : State, s.busy = false →
    hostServe (.readReg .cmd) s = .next (s.hostGets 0) ∧
    hostServe (.readReg .status) s = .next (s.hostGets s.status.toNat) ∧
    hostServe (.readReg .inLen) s = .next (s.hostGets s.inLen) ∧
    hostServe (.readReg .outLen) s = .next (s.hostGets s.outLen) ∧
    hostServe (.readReg .fltSrc) s = .next (s.hostGets s.fltSrc.toNat) ∧
    hostServe (.readReg .fltDst) s = .next (s.hostGets s.fltDst.toNat) ∧
    hostServe (.readReg .fltDport) s = .next (s.hostGets s.fltDport.toNat)

/-- R45, R104: a read, busy or not, changes nothing but what the host has read and the model's count
of free values. Both are the model's own fields (logs 11 and 22). -/
def Obligations.ReadsHaveNoSideEffect : Prop :=
  ∀ (s t : State) (r : HostAccess),
    ((∃ x, r = .readReg x) ∨ (∃ a, r = .readIn a) ∨ (∃ a, r = .readOut a)) →
    hostServe r s = .next t →
    (∃ v, t.hostReads = v :: s.hostReads) ∧
      t = { s with hostReads := t.hostReads, draws := t.draws }

/-- R12, R40, R45: a host write of a byte of `IN` is what a read of that address returns, every
other byte of `IN` reads as before, and nothing else changes; an address that does not exist faults.
The fault is the model's form of an address that does not exist (log 9). -/
def Obligations.HostWriteOfInputByte : Prop :=
  ∀ (s : State) (a : Nat) (b : Byte), s.busy = false →
    (s.addrExists a = true →
      ∃ t, hostServe (.writeIn a b) s = .next t ∧ t.inByte a = b ∧
        (∀ a', a' ≠ a → t.inByte a' = s.inByte a') ∧ t = { s with inBuf := t.inBuf } ∧
        hostServe (.readIn a) t = .next (t.hostGets b.toNat)) ∧
    (s.addrExists a = false → hostServe (.writeIn a b) s = .fault (.inAddress a))

/-- R13, U7: a host read of `OUT` on a core that is not busy: the byte of the output below
`OUT_LEN`, refused at and past it, a fault where the address does not exist. That the refusal holds
after a reset and before any command too, where U8 says `any value`, is the model's choice (log 6), and
so is which of these tests comes first (logs 6 and 9). -/
def Obligations.HostReadOfOutputByte : Prop :=
  ∀ (s : State) (a : Nat), s.busy = false →
    (s.addrExists a = true → a < s.outLen →
      ∃ b : Byte, s.outBytes[a]? = some b ∧ hostServe (.readOut a) s = .next (s.hostGets b.toNat)) ∧
    (s.addrExists a = true → s.outLen ≤ a → hostServe (.readOut a) s = .refused (.outPastLength a)) ∧
    (s.addrExists a = false → hostServe (.readOut a) s = .fault (.outAddress a))

/-- R47, R245, R246: while `BUSY = 1` a write of `CMD`, of a register or of a byte of `IN` is ignored.
The second form of a start is the model's choice (log 2), and so is that a byte past `N_MAX` is no such
byte but a fault (log 9). -/
def Obligations.BusyIgnoresWrites : Prop :=
  ∀ s : State, s.busy = true →
    (∀ r v, hostServe (.writeReg r v) s = .next s) ∧
    (∀ c d, hostServe (.startCmd c d) s = .next s) ∧
    (∀ a b, s.addrExists a = true → hostServe (.writeIn a b) s = .next s)

/-- R47, R246: while `BUSY = 1` a read of `OUT` or `OUT_LEN` answers, with a value of the right
width and no other promise. The values are free (log 7). -/
def Obligations.BusyReadsAnswer : Prop :=
  ∀ s : State, s.busy = true →
    (∃ v, s.lenRepresentable v = true ∧ hostServe (.readReg .outLen) s = .next (s.hostGets v).drawn) ∧
    (∀ a, s.addrExists a = true →
      ∃ b : Byte, hostServe (.readOut a) s = .next (s.hostGets b.toNat).drawn)

/-- R100, R15: a command that takes time starts with `STATUS = 0x20` and `OUT_LEN = 0`. How a
command takes time is the model's choice (log 2). -/
def Obligations.StartedCommandIsBusy : Prop :=
  ∀ (s : State) (c : Byte) (i : Instr) (k : Nat) (rest : List HostAccess), Idle s →
    s.lenFits s.inLen = true → decodeByte c = .ok i → s.pending = .startCmd c k :: rest →
    ∃ t, step s = .next t ∧ t.status = 0x20#8 ∧ t.busy = true ∧ t.done = false ∧ t.outLen = 0 ∧
      t.running = some { instr := i, left := k } ∧ t.pending = rest ∧ t.inBuf = s.inBuf ∧
      t.inLen = s.inLen ∧ t.filterTriple = s.filterTriple

/-- R246, R11: whatever the host does while a command takes time, short of a reset, the outcome is
that of the atomic command on the input as it stood at the start. How a command takes time is the
model's choice (log 2). -/
def Obligations.StartedCommandMatchesAtomic : Prop :=
  ∀ (s : State) (c : Byte) (i : Instr) (during rest : List HostAccess), Idle s →
    s.lenFits s.inLen = true → decodeByte c = .ok i → (∀ a ∈ during, ServedWithoutReset s a) →
    s.pending = .startCmd c during.length :: (during ++ rest) →
    ∃ t u, Sys2Proof.core.run (during.length + 2) s = .next t ∧
      exec i { s with pending := rest } = .next u ∧ t.status = u.status ∧ t.outLen = u.outLen ∧
      t.outBuf = u.outBuf ∧ t.inBuf = u.inBuf ∧ t.inLen = u.inLen ∧
      t.filterTriple = u.filterTriple ∧ t.running = none ∧ t.pending = rest

/-- R102: a command in progress comes to its end after at most as many steps as host accesses fall
inside its run and one more, if their addresses exist. How a command takes time is the model's
choice (log 2). -/
def Obligations.RunningCommandEnds : Prop :=
  ∀ (s : State) (r : Running), StateInv s → s.running = some r →
    (∀ a ∈ s.pending, ServedWithoutReset s a ∨ a = .reset) →
    ∃ n t, n ≤ r.left + 1 ∧ Sys2Proof.core.run n s = .next t ∧ t.running = none ∧ t.busy = false

/-- R82, R105: `MOVE` makes the output the input and changes nothing else. `MOVE` as one access is
the model's choice (log 12). -/
def Obligations.MoveMakesOutputTheInput : Prop :=
  ∀ s : State, StateInv s → s.busy = false →
    ∃ t, hostServe .move s = .next t ∧ t.inBytes = s.outBytes ∧ t.inLen = s.outLen ∧
      (∀ a, s.outLen ≤ a → t.inByte a = s.inByte a) ∧
      t = { s with inBuf := t.inBuf, inLen := s.outLen }

/-- R82, R242: the script line `LOAD IN` on an idle core makes its bytes the input. The accesses of
a script line are the model's choice (logs 1 and 24). -/
def Obligations.LoadMakesBytesTheInput : Prop :=
  ∀ (s : State) (bs : List Byte) (rest : List HostAccess), Idle s → s.lenFits bs.length = true →
    s.pending = scriptLoad bs ++ rest →
    ∃ t, Sys2Proof.core.run (bs.length + 1) s = .next t ∧ t.inBytes = bs ∧ t.inLen = bs.length ∧
      (∀ a, bs.length ≤ a → t.inByte a = s.inByte a) ∧
      t = { s with inBuf := t.inBuf, inLen := bs.length, pending := rest }

/-! ### The whole machine -/

/-- The invariant holds after reset. -/
def Obligations.ResetMeetsInvariant : Prop := StateInv State.reset

/-- The invariant holds after every step that answers a next state, from every state that meets
it. -/
def Obligations.StepKeepsInvariant : Prop :=
  ∀ s t : State, StateInv s → step s = .next t → StateInv t

/-- A host that keeps the rules R242 to R246 never stops the machine. -/
def Obligations.LegalHostNeverStopsTheMachine : Prop :=
  ∀ s : State, StateInv s → hostNextLegal s → ∃ t, step s = .next t

/-- R15: in the atomic reading the host never reads `BUSY = 1`: a step of an idle core leaves it
idle unless the host starts a command that takes time. A start that takes time is the model's form
of that (log 2). -/
def Obligations.AtomicCommandsNeverShowBusy : Prop :=
  ∀ s t : State, Idle s → (∀ c d, s.pending.head? ≠ some (.startCmd c d)) → step s = .next t →
    Idle t

/-- R7: no step changes the machine's parameter. `N_MAX` as a field is the model's choice (log 3).
-/
def Obligations.StepKeepsCapacity : Prop :=
  ∀ s t : State, step s = .next t → t.nMax = s.nMax

/-- While `BUSY = 1` a `MOVE` changes nothing: its writes of `IN` and `IN_LEN` are ignored (R47, R82,
R246). `MOVE` as one access, whose own reads are not recorded, is the model's choice (log 12). -/
def Obligations.BusyIgnoresMove : Prop :=
  ∀ s : State, s.busy = true → hostServe .move s = .next s
end

