-- ==== Sys2Proof/Laws/Memory.lean ====
section
/-! SUPPORT. The laws of memory: reading after writing, and that every write keeps the canonical
form. -/

namespace Sys2Proof.Machine.Memory

@[simp] theorem read_nil (a : Nat) : Memory.read [] a = none := rfl

theorem read_cons (x : Nat) (b : Byte) (m : Memory) (a : Nat) :
    Memory.read ((x, b) :: m) a = if a = x then some b else m.read a := rfl

@[simp] theorem writeBytes_nil (m : Memory) (a : Nat) : m.writeBytes a [] = m := rfl

theorem writeBytes_cons (m : Memory) (a : Nat) (b : Byte) (bs : List Byte) :
    m.writeBytes a (b :: bs) = (m.write a b).writeBytes (a + 1) bs := rfl

theorem read_none_of_lt {m : Memory} {a : Nat} (h : ∀ c ∈ m, a < c.1) : m.read a = none := by
  induction m with
  | nil => rfl
  | cons c m ih =>
    obtain ⟨x, b⟩ := c
    have hx : a < x := h (x, b) (by simp)
    rw [read_cons, if_neg (by omega)]
    exact ih fun c hc => h c (by simp [hc])

theorem read_write_same (m : Memory) (a : Nat) (b : Byte) : (m.write a b).read a = some b := by
  induction m with
  | nil => simp [write, read_cons]
  | cons c m ih =>
    obtain ⟨x, b'⟩ := c
    simp only [write]
    split
    · simp [read_cons]
    · split
      · simp [read_cons]
      · rw [read_cons, if_neg ‹_›, ih]

theorem read_write_other (m : Memory) {a a' : Nat} (b : Byte) (h : a' ≠ a) :
    (m.write a b).read a' = m.read a' := by
  induction m with
  | nil => simp [write, read_cons, h]
  | cons c m ih =>
    obtain ⟨x, b'⟩ := c
    simp only [write]
    split
    · simp [read_cons, h]
    · split
      · next hx => simp [read_cons, h, ← hx]
      · simp only [read_cons, ih]

theorem read_write (m : Memory) (a a' : Nat) (b : Byte) :
    (m.write a b).read a' = if a' = a then some b else m.read a' := by
  split
  · next h => rw [h, read_write_same]
  · next h => rw [read_write_other _ _ h]

theorem read_writeBytes (m : Memory) (a : Nat) (bs : List Byte) (x : Nat) :
    (m.writeBytes a bs).read x =
      if a ≤ x ∧ x < a + bs.length then bs[x - a]? else m.read x := by
  induction bs generalizing m a with
  | nil => rw [writeBytes_nil, if_neg (by simp)]
  | cons b bs ih =>
    rw [writeBytes_cons, ih, read_write]
    by_cases h1 : x = a
    · subst h1
      simp
    · by_cases h2 : a + 1 ≤ x ∧ x < a + 1 + bs.length
      · have hx : x - a = (x - (a + 1)) + 1 := by omega
        rw [if_pos h2, if_pos (by simp; omega), hx, List.getElem?_cons_succ]
      · rw [if_neg h2, if_neg h1, if_neg (by simp; omega)]

/-- The cells after a write: the ones before it, or the one written. -/
theorem mem_write {m : Memory} {a : Nat} {b : Byte} {c : Host.Cell} (h : c ∈ m.write a b) :
    c = (a, b) ∨ c ∈ m := by
  induction m with
  | nil => simpa [write] using h
  | cons d m ih =>
    obtain ⟨x, b'⟩ := d
    simp only [write] at h
    split at h
    · simpa using h
    · split at h
      · rcases List.mem_cons.1 h with h | h <;> simp [h]
      · rcases List.mem_cons.1 h with h | h
        · simp [h]
        · rcases ih h with h | h <;> simp [h]

theorem mem_writeBytes {m : Memory} {a : Nat} {bs : List Byte} {c : Host.Cell}
    (h : c ∈ m.writeBytes a bs) : (a ≤ c.1 ∧ c.1 < a + bs.length) ∨ c ∈ m := by
  induction bs generalizing m a with
  | nil => exact .inr h
  | cons b bs ih =>
    rw [writeBytes_cons] at h
    rcases ih h with h | h
    · exact .inl (by simp; omega)
    · rcases mem_write h with h | h
      · exact .inl (by simp [h])
      · exact .inr h

theorem wf_nil : Memory.wf [] := List.Pairwise.nil

/-- A write keeps the canonical form. -/
theorem wf_write {m : Memory} (h : m.wf) (a : Nat) (b : Byte) : (m.write a b).wf := by
  induction m with
  | nil => exact List.pairwise_singleton _ _
  | cons c m ih =>
    obtain ⟨x, b'⟩ := c
    have hm := (List.pairwise_cons.1 h).1
    have ht := (List.pairwise_cons.1 h).2
    simp only [write]
    split
    · next hlt =>
      refine List.pairwise_cons.2 ⟨fun d hd => ?_, h⟩
      rcases List.mem_cons.1 hd with hd | hd
      · simpa [hd] using hlt
      · exact Nat.lt_trans hlt (hm d hd)
    · split
      · next he => exact List.pairwise_cons.2 ⟨fun d hd => by simpa [he] using hm d hd, ht⟩
      · next hge hne =>
        refine List.pairwise_cons.2 ⟨fun d hd => ?_, ih ht⟩
        rcases mem_write hd with hd | hd
        · have : x < a := by omega
          simpa [hd] using this
        · exact hm d hd

/-- Writing a sequence keeps the canonical form. -/
theorem wf_writeBytes {m : Memory} (h : m.wf) (a : Nat) (bs : List Byte) :
    (m.writeBytes a bs).wf := by
  induction bs generalizing m a with
  | nil => exact h
  | cons b bs ih => exact ih (wf_write h a b) (a + 1)

end Sys2Proof.Machine.Memory
end

