-- ==== Sys2Proof/Laws/Radix85.lean ====
section
/-! SUPPORT. The Radix85 Codec, once: the delimiter search, the groups, the length of the output. -/

namespace Sys2Proof.Machine

/-- Two adjacent bytes, in terms of the head and the tail of the sequence. -/
theorem pair_at_succ (a : Byte) (B : List Byte) (x y : Byte) (j : Nat) :
    ((a :: B)[j + 1]? = some x ∧ (a :: B)[j + 1 + 1]? = some y) ↔
      (B[j]? = some x ∧ B[j + 1]? = some y) := by
  simp

/-- The search answers the least index of an adjacent pair. -/
theorem findPair_eq_some {x y : Byte} {B : List Byte} {i : Nat} (h : findPair x y B = some i) :
    (B[i]? = some x ∧ B[i + 1]? = some y) ∧
      ∀ j, j < i → ¬ (B[j]? = some x ∧ B[j + 1]? = some y) := by
  induction B generalizing i with
  | nil => simp [findPair] at h
  | cons a B ih =>
    cases B with
    | nil => simp [findPair] at h
    | cons b rest =>
      simp only [findPair] at h
      split at h
      · next hab => cases h; exact ⟨by simp [hab.1, hab.2], fun j hj => by omega⟩
      · next hab =>
        obtain ⟨k, hk, rfl⟩ := Option.map_eq_some_iff.1 h
        obtain ⟨hp, hmin⟩ := ih hk
        refine ⟨(pair_at_succ a _ x y k).2 hp, fun j hj => ?_⟩
        cases j with
        | zero => simpa using hab
        | succ j => exact fun hc => hmin j (by omega) ((pair_at_succ a _ x y j).1 hc)

/-- The search fails only where no adjacent pair stands. -/
theorem findPair_eq_none {x y : Byte} {B : List Byte} (h : findPair x y B = none) (j : Nat) :
    ¬ (B[j]? = some x ∧ B[j + 1]? = some y) := by
  induction B generalizing j with
  | nil => simp
  | cons a B ih =>
    cases B with
    | nil => simp
    | cons b rest =>
      simp only [findPair] at h
      split at h
      · exact absurd h (by simp)
      · next hab =>
        have hn := Option.map_eq_none_iff.1 h
        cases j with
        | zero => simpa using hab
        | succ j => exact fun hc => ih hn j ((pair_at_succ a _ x y j).1 hc)

/-- The search answers `i` where `i` is the least index of an adjacent pair. -/
theorem findPair_of_least {x y : Byte} {B : List Byte} {i : Nat}
    (h : B[i]? = some x ∧ B[i + 1]? = some y)
    (hmin : ∀ j, j < i → ¬ (B[j]? = some x ∧ B[j + 1]? = some y)) : findPair x y B = some i := by
  cases hf : findPair x y B with
  | none => exact absurd h (findPair_eq_none hf i)
  | some k =>
    obtain ⟨hk, hkmin⟩ := findPair_eq_some hf
    have h1 : ¬ k < i := fun hlt => hmin k hlt hk
    have h2 : ¬ i < k := fun hlt => hkmin i hlt h
    rw [show k = i by omega]

/-- The end delimiter, in terms of the whole input. -/
theorem findEnd_eq_some {B : List Byte} {s e : Nat} (h : findEnd B s = some e) :
    s + 2 ≤ e ∧ (B[e]? = some 0x7E#8 ∧ B[e + 1]? = some 0x3E#8) ∧
      ∀ j, s + 2 ≤ j → j < e → ¬ (B[j]? = some 0x7E#8 ∧ B[j + 1]? = some 0x3E#8) := by
  obtain ⟨k, hk, rfl⟩ := Option.map_eq_some_iff.1 h
  obtain ⟨hp, hmin⟩ := findPair_eq_some hk
  simp only [List.getElem?_drop] at hp hmin
  refine ⟨by omega, by simpa [Nat.add_comm, Nat.add_left_comm, Nat.add_assoc] using hp,
    fun j hj hlt => ?_⟩
  have := hmin (j - (s + 2)) (by omega)
  rwa [show s + 2 + (j - (s + 2)) = j by omega, show s + 2 + (j - (s + 2) + 1) = j + 1 by omega]
    at this

/-- The search for the end delimiter fails only where there is none after the start delimiter. -/
theorem findEnd_eq_none {B : List Byte} {s : Nat} (h : findEnd B s = none) {j : Nat}
    (hj : s + 2 ≤ j) : ¬ (B[j]? = some 0x7E#8 ∧ B[j + 1]? = some 0x3E#8) := by
  have := findPair_eq_none (Option.map_eq_none_iff.1 h) (j - (s + 2))
  simp only [List.getElem?_drop] at this
  rwa [show s + 2 + (j - (s + 2)) = j by omega, show s + 2 + (j - (s + 2) + 1) = j + 1 by omega]
    at this

/-- The search answers the least index of an end delimiter after the start delimiter. -/
theorem findEnd_of_least {B : List Byte} {s e : Nat} (hle : s + 2 ≤ e)
    (h : B[e]? = some 0x7E#8 ∧ B[e + 1]? = some 0x3E#8)
    (hmin : ∀ j, s + 2 ≤ j → j < e → ¬ (B[j]? = some 0x7E#8 ∧ B[j + 1]? = some 0x3E#8)) :
    findEnd B s = some e := by
  cases hf : findEnd B s with
  | none => exact absurd h (findEnd_eq_none hf hle)
  | some k =>
    obtain ⟨hk1, hk, hkmin⟩ := findEnd_eq_some hf
    have h1 : ¬ k < e := fun hlt => hmin k hk1 hlt hk
    have h2 : ¬ e < k := fun hlt => hkmin e hle hlt h
    rw [show k = e by omega]

/-- A full group that decodes yields the four bytes of its value. -/
theorem fullGroup_eq_ok {g out : List Byte} (h : fullGroup g = .ok out) :
    groupValue g < 2 ^ 32 ∧ out = wordBytes (BitVec.ofNat 32 (groupValue g)) := by
  unfold fullGroup at h
  split at h
  · next hv => exact ⟨hv, by simpa using h.symm⟩
  · cases h

theorem fullGroup_length {g out : List Byte} (h : fullGroup g = .ok out) : out.length = 4 := by
  simp [(fullGroup_eq_ok h).2, wordBytes]

/-- A group fails only with `GroupOverflow`. -/
theorem fullGroup_eq_error {g : List Byte} {e : CmdError} (h : fullGroup g = .error e) :
    2 ^ 32 ≤ groupValue g ∧ e = .groupOverflow := by
  unfold fullGroup at h
  split at h
  · cases h
  · next hv => exact ⟨Nat.le_of_not_lt hv, by simpa using h.symm⟩

@[simp] theorem keepLeading_ok (n : Nat) (out : List Byte) :
    keepLeading n (.ok out) = .ok (out.take n) := rfl

@[simp] theorem keepLeading_error (n : Nat) (e : CmdError) :
    keepLeading n (.error e) = .error e := rfl

theorem keepLeading_eq_ok {n : Nat} {r : Except CmdError (List Byte)} {out : List Byte}
    (h : keepLeading n r = .ok out) : ∃ x, r = .ok x ∧ out = x.take n := by
  cases r with
  | ok x => exact ⟨x, rfl, by cases h; rfl⟩
  | error e => cases h

theorem partialGroup_length {g out : List Byte} (h : partialGroup g = .ok out) :
    out.length ≤ g.length - 1 := by
  obtain ⟨x, _, rfl⟩ := keepLeading_eq_ok h
  exact List.length_take_le _ _

/-- Output that was delivered came from both pieces (R213). -/
theorem emitThen_eq_ok {a b : Except CmdError (List Byte)} {out : List Byte}
    (h : emitThen a b = .ok out) : ∃ x y, a = .ok x ∧ b = .ok y ∧ out = x ++ y := by
  unfold emitThen at h
  split at h
  · cases h
  · split at h
    · cases h
    · exact ⟨_, _, rfl, rfl, by cases h; rfl⟩

/-- An error came from the first piece, or from the rest after it. -/
theorem emitThen_eq_error {a b : Except CmdError (List Byte)} {e : CmdError}
    (h : emitThen a b = .error e) : a = .error e ∨ ∃ x, a = .ok x ∧ b = .error e := by
  unfold emitThen at h
  split at h
  · exact .inl (by cases h; rfl)
  · split at h
    · exact .inr ⟨_, rfl, by cases h; rfl⟩
    · cases h

@[simp] theorem emitThen_ok_ok (x y : List Byte) :
    emitThen (.ok x) (.ok y) = .ok (x ++ y) := rfl

@[simp] theorem emitThen_error_left (e : CmdError) (b : Except CmdError (List Byte)) :
    emitThen (.error e) b = .error e := rfl

@[simp] theorem emitThen_error_right (x : List Byte) (e : CmdError) :
    emitThen (.ok x) (.error e) = .error e := rfl

/-- The groups of a sequence of at least five symbols: the first one, then the others (R130). -/
theorem decodeGroups_cons (c0 c1 c2 c3 c4 : Byte) (rest : List Byte) :
    decodeGroups (c0 :: c1 :: c2 :: c3 :: c4 :: rest) =
      emitThen (fullGroup [c0, c1, c2, c3, c4]) (decodeGroups rest) := by
  rw [decodeGroups]

@[simp] theorem decodeGroups_nil : decodeGroups [] = .ok [] := by
  rw [decodeGroups]

/-- Fewer than five symbols, and at least one, are a partial group (R130). -/
theorem decodeGroups_partial {g : List Byte} (h : g ≠ []) (hlt : g.length < 5) :
    decodeGroups g = partialGroup g := by
  rw [decodeGroups]
  · rintro c0 c1 c2 c3 c4 rest rfl
    simp at hlt
    omega
  · exact h

/-- Decoding groups never yields more bytes than there are symbols. -/
theorem decodeGroups_length {S out : List Byte} (h : decodeGroups S = .ok out) :
    out.length ≤ S.length := by
  induction S using decodeGroups.induct generalizing out with
  | case1 c0 c1 c2 c3 c4 rest ih =>
    rw [decodeGroups_cons] at h
    obtain ⟨x, y, hx, hy, rfl⟩ := emitThen_eq_ok h
    have h1 := fullGroup_length hx
    have h2 := ih hy
    simp only [List.length_append, List.length_cons]
    omega
  | case2 =>
    rw [decodeGroups_nil] at h
    cases h
    exact Nat.le_refl _
  | case3 g hg hne =>
    have hp : partialGroup g = .ok out := by
      rwa [decodeGroups] at h <;> assumption
    have := partialGroup_length hp
    omega

theorem decodeInterior_length {I out : List Byte} (h : decodeInterior I = .ok out) :
    out.length ≤ I.length := by
  unfold decodeInterior at h
  split at h
  · cases h
  · split at h
    · cases h
    · exact (decodeGroups_length h).trans (List.length_filter_le _ _)

theorem slice_length (S : List Byte) (i j : Nat) :
    (slice S i j).length = min (j - i) (S.length - i) := by
  simp [slice]

/-- The output of `A85DEC` is no longer than its input (R135). -/
theorem a85Decode_length {B out : List Byte} (h : a85Decode B = .ok out) :
    out.length ≤ B.length := by
  unfold a85Decode at h
  split at h
  · cases h
  · split at h
    · cases h
    · have h1 := decodeInterior_length h
      rw [slice_length] at h1
      omega

end Sys2Proof.Machine
end

