-- ==== Sys2Proof/Laws/Packet.lean ====
section
/-! SUPPORT. The Packet Reconstruction Engine, once: what a pass can do, that the loop's bound is
never used up, the length of the output. -/

namespace Sys2Proof.Machine

/-- What a pass that reads a packet leaves: the cursor at least 28 further on and inside the input,
and no more bytes emitted than the packet has beyond its header. -/
theorem packetPass_packet {f : FilterTriple} {B out : List Byte} {cur next : Nat}
    (h : packetPass f B cur = .packet out next) :
    cur + 28 ≤ next ∧ next ≤ B.length ∧ out.length ≤ next - cur - 28 := by
  unfold packetPass headerLength at h
  split at h
  · cases h
  · split at h
    · split at h <;> cases h
    · simp only at h
      split at h
      · cases h
      · split at h
        · cases h
        · next h1 h2 =>
          simp only [Pass.packet.injEq] at h
          obtain ⟨rfl, rfl⟩ := h
          refine ⟨by omega, by omega, ?_⟩
          split
          · rw [slice_length]; omega
          · simp

/-- A pass that fails: a header cut short at the first packet, or a declared length below 8. -/
theorem packetPass_fail {f : FilterTriple} {B : List Byte} {cur : Nat} {e : CmdError}
    (h : packetPass f B cur = .fail e) :
    (cur = 0 ∧ 0 < B.length ∧ B.length < 28 ∧ e = .truncatedHeader) ∨
      (28 ≤ B.length - cur ∧ e = .badLength) := by
  unfold packetPass headerLength at h
  split at h
  · cases h
  · split at h
    · split at h
      · cases h; exact .inl ⟨by omega, by omega, by omega, rfl⟩
      · cases h
    · simp only at h
      split at h
      · cases h; exact .inr ⟨by omega, rfl⟩
      · split at h <;> cases h

/-- Enough passes are as good as more of them: the bound of the loop is never used up (R102). -/
theorem packetLoop_fuel {f : FilterTriple} {B : List Byte} {n m cur : Nat}
    (hn : (B.length - cur) / 28 < n) (hm : (B.length - cur) / 28 < m) :
    packetLoop f B n cur = packetLoop f B m cur := by
  induction n generalizing m cur with
  | zero => omega
  | succ n ih =>
    cases m with
    | zero => omega
    | succ m =>
      simp only [packetLoop]
      cases hp : packetPass f B cur with
      | done => rfl
      | fail e => rfl
      | packet out next =>
        obtain ⟨h1, h2, _⟩ := packetPass_packet hp
        simp only
        rw [ih (m := m) (cur := next) (by omega) (by omega)]

/-- The loop of R170 from a cursor, with no bound on its passes. -/
def packetsFrom (f : FilterTriple) (B : List Byte) (cur : Nat) : Except CmdError (List Byte) :=
  packetLoop f B ((B.length - cur) / 28 + 1) cur

theorem reconstruct_eq (f : FilterTriple) (B : List Byte) : reconstruct f B = packetsFrom f B 0 :=
  rfl

/-- The loop of R170: one pass, then the loop from the next cursor. -/
theorem packetsFrom_eq (f : FilterTriple) (B : List Byte) (cur : Nat) :
    packetsFrom f B cur =
      match packetPass f B cur with
      | .done => .ok []
      | .fail e => .error e
      | .packet out next => emitThen (.ok out) (packetsFrom f B next) := by
  unfold packetsFrom
  rw [packetLoop]
  cases hp : packetPass f B cur with
  | done => rfl
  | fail e => rfl
  | packet out next =>
    obtain ⟨h1, h2, _⟩ := packetPass_packet hp
    simp only
    rw [packetLoop_fuel (m := (B.length - next) / 28 + 1) (by omega) (by omega)]

theorem packetLoop_length {f : FilterTriple} {B out : List Byte} {n cur : Nat}
    (h : packetLoop f B n cur = .ok out) : out.length ≤ B.length - cur := by
  induction n generalizing cur out with
  | zero => simp only [packetLoop, Except.ok.injEq] at h; simp [← h]
  | succ n ih =>
    simp only [packetLoop] at h
    split at h
    · simp only [Except.ok.injEq] at h; simp [← h]
    · cases h
    · next o next hp =>
      obtain ⟨h1, h2, h3⟩ := packetPass_packet hp
      obtain ⟨x, more, hx, hm, rfl⟩ := emitThen_eq_ok h
      cases hx
      have := ih hm
      rw [List.length_append]
      omega

/-- The output of `PKTRX` is no longer than its input (R190). -/
theorem reconstruct_length {f : FilterTriple} {B out : List Byte}
    (h : reconstruct f B = .ok out) : out.length ≤ B.length :=
  (packetLoop_length h).trans (Nat.sub_le _ _)

end Sys2Proof.Machine
end

