-- ==== Sys2Proof/Laws/Parity.lean ====
section
/-! SUPPORT. The Parity Reassembly Codec, once: the groups of eight and the length of the output. -/

namespace Sys2Proof.Machine

/-- The groups of eight, packed: seven bytes for eight. -/
theorem packGroups_length (K : List Byte) : (packGroups K).length = 7 * (K.length / 8) := by
  induction K using packGroups.induct with
  | case1 k0 k1 k2 k3 k4 k5 k6 k7 rest ih =>
    simp only [packGroups, List.length_append, ih, packBytes, List.length_cons, List.length_nil]
    omega
  | case2 K hK =>
    have hlt : K.length < 8 := by
      rcases K with _ | ⟨k0, _ | ⟨k1, _ | ⟨k2, _ | ⟨k3, _ | ⟨k4, _ | ⟨k5, _ | ⟨k6, _ | ⟨k7, r⟩⟩⟩⟩⟩⟩⟩⟩
      all_goals first | exact absurd rfl (hK _ _ _ _ _ _ _ _ _) | simp
    have h0 : packGroups K = [] := by
      rw [packGroups]
      exact hK
    rw [h0, Nat.div_eq_of_lt hlt]
    rfl

theorem parityCombine_eq_ok {B out : List Byte} (h : parityCombine B = .ok out) :
    (retained B).length % 8 = 0 ∧ out = packGroups (retained B) := by
  unfold parityCombine at h
  split at h
  · cases h
  · next hq => exact ⟨by omega, by simpa using h.symm⟩

theorem parityCombine_eq_error {B : List Byte} {e : CmdError} (h : parityCombine B = .error e) :
    (retained B).length % 8 ≠ 0 ∧ e = .misalignedInput := by
  unfold parityCombine at h
  split at h
  · next hq => exact ⟨hq, by simpa using h.symm⟩
  · cases h

theorem retained_length (B : List Byte) : (retained B).length ≤ B.length :=
  List.length_filter_le _ _

/-- The output of `PARPACK` is no longer than its input (R158). -/
theorem parityCombine_length {B out : List Byte} (h : parityCombine B = .ok out) :
    out.length ≤ B.length := by
  obtain ⟨_, rfl⟩ := parityCombine_eq_ok h
  have := retained_length B
  rw [packGroups_length]
  omega

end Sys2Proof.Machine
end

