-- ==== Sys2Proof/Laws/State.lean ====
section
/-! SUPPORT. One lemma per field per update of State, each true by rfl, so that no later proof unfolds
a record update. -/

namespace Sys2Proof.Machine.State

/-! ### `emit` -/

@[simp] theorem emit_status (s : State) (v : List Byte) : (s.emit v).status = s.status := rfl
@[simp] theorem emit_inLen (s : State) (v : List Byte) : (s.emit v).inLen = s.inLen := rfl
@[simp] theorem emit_outLen (s : State) (v : List Byte) : (s.emit v).outLen = s.outLen + v.length := rfl
@[simp] theorem emit_fltSrc (s : State) (v : List Byte) : (s.emit v).fltSrc = s.fltSrc := rfl
@[simp] theorem emit_fltDst (s : State) (v : List Byte) : (s.emit v).fltDst = s.fltDst := rfl
@[simp] theorem emit_fltDport (s : State) (v : List Byte) : (s.emit v).fltDport = s.fltDport := rfl
@[simp] theorem emit_inBuf (s : State) (v : List Byte) : (s.emit v).inBuf = s.inBuf := rfl
@[simp] theorem emit_outBuf (s : State) (v : List Byte) : (s.emit v).outBuf = s.outBuf.writeBytes s.outLen v := rfl
@[simp] theorem emit_nMax (s : State) (v : List Byte) : (s.emit v).nMax = s.nMax := rfl
@[simp] theorem emit_running (s : State) (v : List Byte) : (s.emit v).running = s.running := rfl
@[simp] theorem emit_pending (s : State) (v : List Byte) : (s.emit v).pending = s.pending := rfl
@[simp] theorem emit_hostReads (s : State) (v : List Byte) : (s.emit v).hostReads = s.hostReads := rfl
@[simp] theorem emit_inEpoch (s : State) (v : List Byte) : (s.emit v).inEpoch = s.inEpoch := rfl
@[simp] theorem emit_draws (s : State) (v : List Byte) : (s.emit v).draws = s.draws := rfl

/-! ### `begin` -/

@[simp] theorem begin_status (s : State) : s.begin.status = statusBusy := rfl
@[simp] theorem begin_inLen (s : State) : s.begin.inLen = s.inLen := rfl
@[simp] theorem begin_outLen (s : State) : s.begin.outLen = 0 := rfl
@[simp] theorem begin_fltSrc (s : State) : s.begin.fltSrc = s.fltSrc := rfl
@[simp] theorem begin_fltDst (s : State) : s.begin.fltDst = s.fltDst := rfl
@[simp] theorem begin_fltDport (s : State) : s.begin.fltDport = s.fltDport := rfl
@[simp] theorem begin_inBuf (s : State) : s.begin.inBuf = s.inBuf := rfl
@[simp] theorem begin_outBuf (s : State) : s.begin.outBuf = [] := rfl
@[simp] theorem begin_nMax (s : State) : s.begin.nMax = s.nMax := rfl
@[simp] theorem begin_running (s : State) : s.begin.running = s.running := rfl
@[simp] theorem begin_pending (s : State) : s.begin.pending = s.pending := rfl
@[simp] theorem begin_hostReads (s : State) : s.begin.hostReads = s.hostReads := rfl
@[simp] theorem begin_inEpoch (s : State) : s.begin.inEpoch = s.inEpoch := rfl
@[simp] theorem begin_draws (s : State) : s.begin.draws = s.draws := rfl

/-! ### `completeOk` -/

@[simp] theorem completeOk_status (s : State) : s.completeOk.status = statusDone 0#4 := rfl
@[simp] theorem completeOk_inLen (s : State) : s.completeOk.inLen = s.inLen := rfl
@[simp] theorem completeOk_outLen (s : State) : s.completeOk.outLen = s.outLen := rfl
@[simp] theorem completeOk_fltSrc (s : State) : s.completeOk.fltSrc = s.fltSrc := rfl
@[simp] theorem completeOk_fltDst (s : State) : s.completeOk.fltDst = s.fltDst := rfl
@[simp] theorem completeOk_fltDport (s : State) : s.completeOk.fltDport = s.fltDport := rfl
@[simp] theorem completeOk_inBuf (s : State) : s.completeOk.inBuf = s.inBuf := rfl
@[simp] theorem completeOk_outBuf (s : State) : s.completeOk.outBuf = s.outBuf := rfl
@[simp] theorem completeOk_nMax (s : State) : s.completeOk.nMax = s.nMax := rfl
@[simp] theorem completeOk_running (s : State) : s.completeOk.running = s.running := rfl
@[simp] theorem completeOk_pending (s : State) : s.completeOk.pending = s.pending := rfl
@[simp] theorem completeOk_hostReads (s : State) : s.completeOk.hostReads = s.hostReads := rfl
@[simp] theorem completeOk_inEpoch (s : State) : s.completeOk.inEpoch = s.inEpoch := rfl
@[simp] theorem completeOk_draws (s : State) : s.completeOk.draws = s.draws := rfl

/-! ### `raiseError` -/

@[simp] theorem raiseError_status (s : State) (e : CmdError) : (s.raiseError e).status = statusDone e.code := rfl
@[simp] theorem raiseError_inLen (s : State) (e : CmdError) : (s.raiseError e).inLen = s.inLen := rfl
@[simp] theorem raiseError_outLen (s : State) (e : CmdError) : (s.raiseError e).outLen = 0 := rfl
@[simp] theorem raiseError_fltSrc (s : State) (e : CmdError) : (s.raiseError e).fltSrc = s.fltSrc := rfl
@[simp] theorem raiseError_fltDst (s : State) (e : CmdError) : (s.raiseError e).fltDst = s.fltDst := rfl
@[simp] theorem raiseError_fltDport (s : State) (e : CmdError) : (s.raiseError e).fltDport = s.fltDport := rfl
@[simp] theorem raiseError_inBuf (s : State) (e : CmdError) : (s.raiseError e).inBuf = s.inBuf := rfl
@[simp] theorem raiseError_outBuf (s : State) (e : CmdError) : (s.raiseError e).outBuf = [] := rfl
@[simp] theorem raiseError_nMax (s : State) (e : CmdError) : (s.raiseError e).nMax = s.nMax := rfl
@[simp] theorem raiseError_running (s : State) (e : CmdError) : (s.raiseError e).running = s.running := rfl
@[simp] theorem raiseError_pending (s : State) (e : CmdError) : (s.raiseError e).pending = s.pending := rfl
@[simp] theorem raiseError_hostReads (s : State) (e : CmdError) : (s.raiseError e).hostReads = s.hostReads := rfl
@[simp] theorem raiseError_inEpoch (s : State) (e : CmdError) : (s.raiseError e).inEpoch = s.inEpoch := rfl
@[simp] theorem raiseError_draws (s : State) (e : CmdError) : (s.raiseError e).draws = s.draws := rfl

/-! ### `hostGets` -/

@[simp] theorem hostGets_status (s : State) (v : Nat) : (s.hostGets v).status = s.status := rfl
@[simp] theorem hostGets_inLen (s : State) (v : Nat) : (s.hostGets v).inLen = s.inLen := rfl
@[simp] theorem hostGets_outLen (s : State) (v : Nat) : (s.hostGets v).outLen = s.outLen := rfl
@[simp] theorem hostGets_fltSrc (s : State) (v : Nat) : (s.hostGets v).fltSrc = s.fltSrc := rfl
@[simp] theorem hostGets_fltDst (s : State) (v : Nat) : (s.hostGets v).fltDst = s.fltDst := rfl
@[simp] theorem hostGets_fltDport (s : State) (v : Nat) : (s.hostGets v).fltDport = s.fltDport := rfl
@[simp] theorem hostGets_inBuf (s : State) (v : Nat) : (s.hostGets v).inBuf = s.inBuf := rfl
@[simp] theorem hostGets_outBuf (s : State) (v : Nat) : (s.hostGets v).outBuf = s.outBuf := rfl
@[simp] theorem hostGets_nMax (s : State) (v : Nat) : (s.hostGets v).nMax = s.nMax := rfl
@[simp] theorem hostGets_running (s : State) (v : Nat) : (s.hostGets v).running = s.running := rfl
@[simp] theorem hostGets_pending (s : State) (v : Nat) : (s.hostGets v).pending = s.pending := rfl
@[simp] theorem hostGets_hostReads (s : State) (v : Nat) : (s.hostGets v).hostReads = v :: s.hostReads := rfl
@[simp] theorem hostGets_inEpoch (s : State) (v : Nat) : (s.hostGets v).inEpoch = s.inEpoch := rfl
@[simp] theorem hostGets_draws (s : State) (v : Nat) : (s.hostGets v).draws = s.draws := rfl

/-! ### `drawn` -/

@[simp] theorem drawn_status (s : State) : s.drawn.status = s.status := rfl
@[simp] theorem drawn_inLen (s : State) : s.drawn.inLen = s.inLen := rfl
@[simp] theorem drawn_outLen (s : State) : s.drawn.outLen = s.outLen := rfl
@[simp] theorem drawn_fltSrc (s : State) : s.drawn.fltSrc = s.fltSrc := rfl
@[simp] theorem drawn_fltDst (s : State) : s.drawn.fltDst = s.fltDst := rfl
@[simp] theorem drawn_fltDport (s : State) : s.drawn.fltDport = s.fltDport := rfl
@[simp] theorem drawn_inBuf (s : State) : s.drawn.inBuf = s.inBuf := rfl
@[simp] theorem drawn_outBuf (s : State) : s.drawn.outBuf = s.outBuf := rfl
@[simp] theorem drawn_nMax (s : State) : s.drawn.nMax = s.nMax := rfl
@[simp] theorem drawn_running (s : State) : s.drawn.running = s.running := rfl
@[simp] theorem drawn_pending (s : State) : s.drawn.pending = s.pending := rfl
@[simp] theorem drawn_hostReads (s : State) : s.drawn.hostReads = s.hostReads := rfl
@[simp] theorem drawn_inEpoch (s : State) : s.drawn.inEpoch = s.inEpoch := rfl
@[simp] theorem drawn_draws (s : State) : s.drawn.draws = s.draws + 1 := rfl

/-! ### `applyReset` -/

@[simp] theorem applyReset_status (s : State) : s.applyReset.status = 0#8 := rfl
@[simp] theorem applyReset_inLen (s : State) : s.applyReset.inLen = 0 := rfl
@[simp] theorem applyReset_outLen (s : State) : s.applyReset.outLen = 0 := rfl
@[simp] theorem applyReset_fltSrc (s : State) : s.applyReset.fltSrc = 0#32 := rfl
@[simp] theorem applyReset_fltDst (s : State) : s.applyReset.fltDst = 0#32 := rfl
@[simp] theorem applyReset_fltDport (s : State) : s.applyReset.fltDport = 0#16 := rfl
@[simp] theorem applyReset_inBuf (s : State) : s.applyReset.inBuf = [] := rfl
@[simp] theorem applyReset_outBuf (s : State) : s.applyReset.outBuf = [] := rfl
@[simp] theorem applyReset_nMax (s : State) : s.applyReset.nMax = s.nMax := rfl
@[simp] theorem applyReset_running (s : State) : s.applyReset.running = none := rfl
@[simp] theorem applyReset_pending (s : State) : s.applyReset.pending = s.pending := rfl
@[simp] theorem applyReset_hostReads (s : State) : s.applyReset.hostReads = s.hostReads := rfl
@[simp] theorem applyReset_inEpoch (s : State) : s.applyReset.inEpoch = s.inEpoch + 1 := rfl
@[simp] theorem applyReset_draws (s : State) : s.applyReset.draws = s.draws := rfl

/-! ### What a part of the state decides on its own -/

theorem busy_congr {s t : State} (h : t.status = s.status) : t.busy = s.busy := by
  rw [busy, busy, h]

theorem addrExists_congr {s t : State} (h : t.nMax = s.nMax) (a : Nat) :
    t.addrExists a = s.addrExists a := by
  rw [addrExists, addrExists, h]

theorem lenFits_congr {s t : State} (h : t.nMax = s.nMax) (n : Nat) :
    t.lenFits n = s.lenFits n := by
  rw [lenFits, lenFits, h]

theorem lenRepresentable_congr {s t : State} (h : t.nMax = s.nMax) (v : Nat) :
    t.lenRepresentable v = s.lenRepresentable v := by
  rw [lenRepresentable, lenRepresentable, h]

theorem inBytes_congr {s t : State} (h : t.inBuf = s.inBuf) (he : t.inEpoch = s.inEpoch)
    (hl : t.inLen = s.inLen) : t.inBytes = s.inBytes := by
  simp only [inBytes, memReadIn, inByte, h, he, hl]

/-- A length below one that fits fits too. -/
theorem lenFits_mono {s : State} {a b : Nat} (h : a ≤ b) (hb : s.lenFits b = true) :
    s.lenFits a = true := by
  unfold lenFits at *
  split
  · rfl
  · next m hm =>
    rw [hm] at hb
    simp only [decide_eq_true_eq] at hb ⊢
    omega

/-- An address below a length that fits exists. -/
theorem addrExists_of_lt {s : State} {a n : Nat} (h : a < n) (hn : s.lenFits n = true) :
    s.addrExists a = true := by
  unfold lenFits at hn
  unfold addrExists
  split
  · rfl
  · next m hm =>
    rw [hm] at hn
    simp only [decide_eq_true_eq] at hn ⊢
    omega

/-- `N_MAX` itself is below two to the `LW` (R7). -/
theorem lt_two_pow_lengthWidth (n : Nat) : n < 2 ^ lengthWidth n := by
  unfold lengthWidth
  split
  · next h => simp [h]
  · exact Nat.lt_log2_self

/-- A length that fits is one the register can represent (R16). -/
theorem lenRepresentable_of_lenFits {s : State} {v : Nat} (h : s.lenFits v = true) :
    s.lenRepresentable v = true := by
  unfold lenFits at h
  unfold lenRepresentable
  split
  · rfl
  · next m hm =>
    rw [hm] at h
    simp only [decide_eq_true_eq] at h ⊢
    exact Nat.lt_of_le_of_lt h (lt_two_pow_lengthWidth m)

/-- A value cut to the register's width is one it can represent (R7). -/
theorem lenRepresentable_cutToLength (s : State) (v : Nat) :
    s.lenRepresentable (s.cutToLength v) = true := by
  unfold lenRepresentable cutToLength
  split
  · rfl
  · exact decide_eq_true (Nat.mod_lt _ (Nat.two_pow_pos _))

end Sys2Proof.Machine.State
end

