-- ==== Sys2Proof/Laws/Commands.lean ====
section
/-! SUPPORT. Commands, once: what the shared run of a command can do, and what its end leaves. -/

namespace Sys2Proof.Machine

/-- The function a command computes (R11). -/
def commandFunction (i : Instr) (f : FilterTriple) (B : List Byte) : Except CmdError (List Byte) :=
  match i with
  | .a85dec => a85Decode B
  | .parpack => parityCombine B
  | .pktrx => reconstruct f B

/-- Every command is the shared run over its function. -/
theorem exec_eq (i : Instr) (s : State) :
    exec i s = runCommand (commandFunction i s.filterTriple) s := by
  cases i <;> rfl

/-- No command's output is longer than its input. -/
theorem commandFunction_length {i : Instr} {f : FilterTriple} {B out : List Byte}
    (h : commandFunction i f B = .ok out) : out.length ≤ B.length := by
  cases i with
  | a85dec => exact a85Decode_length h
  | parpack => exact parityCombine_length h
  | pktrx => exact reconstruct_length h

@[simp] theorem inBytes_length (s : State) : s.inBytes.length = s.inLen := by
  simp [State.inBytes, State.memReadIn]

/-- The state a command ends in. -/
def commandEnd (i : Instr) (s : State) : State :=
  s.begin.finish (commandFunction i s.filterTriple s.inBytes)

theorem exec_of_fits (i : Instr) {s : State} (h : s.lenFits s.inLen = true) :
    exec i s = .next (commandEnd i s) := by
  rw [exec_eq, runCommand, if_pos h, commandEnd]

theorem exec_of_not_fits (i : Instr) {s : State} (h : s.lenFits s.inLen = false) :
    exec i s = .refused (.inLenAboveCapacity s.inLen) := by
  rw [exec_eq, runCommand, if_neg (by simp [h])]

/-- What an answered command can be: `IN_LEN` fits and the state is the command's end. -/
theorem exec_next {i : Instr} {s t : State} (h : exec i s = .next t) :
    s.lenFits s.inLen = true ∧ t = commandEnd i s := by
  cases hf : s.lenFits s.inLen with
  | true =>
    rw [exec_of_fits i hf] at h
    exact ⟨rfl, by cases h; rfl⟩
  | false =>
    rw [exec_of_not_fits i hf] at h
    cases h

/-- The state a successful end leaves (R101). -/
def succeeded (s : State) (out : List Byte) : State := (s.begin.emit out).completeOk

theorem commandEnd_ok {i : Instr} {s : State} {out : List Byte}
    (h : commandFunction i s.filterTriple s.inBytes = .ok out) :
    commandEnd i s = succeeded s out := by
  rw [commandEnd, h]; rfl

theorem commandEnd_error {i : Instr} {s : State} {e : CmdError}
    (h : commandFunction i s.filterTriple s.inBytes = .error e) :
    commandEnd i s = s.begin.raiseError e := by
  rw [commandEnd, h]; rfl

/-- A command ends with success or with an error, and in no third way. -/
theorem commandEnd_cases (i : Instr) (s : State) :
    (∃ out, commandFunction i s.filterTriple s.inBytes = .ok out ∧
      commandEnd i s = succeeded s out) ∨
    (∃ e, commandFunction i s.filterTriple s.inBytes = .error e ∧
      commandEnd i s = s.begin.raiseError e) := by
  cases h : commandFunction i s.filterTriple s.inBytes with
  | ok out => exact .inl ⟨out, rfl, commandEnd_ok h⟩
  | error e => exact .inr ⟨e, rfl, commandEnd_error h⟩

@[simp] theorem succeeded_status (s : State) (out : List Byte) :
    (succeeded s out).status = 0x10#8 := rfl

@[simp] theorem succeeded_outLen (s : State) (out : List Byte) :
    (succeeded s out).outLen = out.length := by
  simp [succeeded]

theorem succeeded_read (s : State) (out : List Byte) (a : Nat) :
    (succeeded s out).outBuf.read a = out[a]? := by
  simp only [succeeded, State.completeOk_outBuf, State.emit_outBuf, State.begin_outBuf,
    State.begin_outLen, Memory.read_writeBytes, Memory.read_nil]
  split
  · simp
  · next h => rw [List.getElem?_eq_none (by omega)]

theorem succeeded_wf (s : State) (out : List Byte) : (succeeded s out).outBuf.wf :=
  Memory.wf_writeBytes Memory.wf_nil _ _

/-- The valid output after a success is what was emitted (R101). -/
@[simp] theorem succeeded_outBytes (s : State) (out : List Byte) :
    (succeeded s out).outBytes = out := by
  apply List.ext_getElem
  · simp [State.outBytes]
  · intro k h1 h2
    simp [State.outBytes, State.outByte, succeeded_read, h2]

theorem statusDone_code_le (e : CmdError) : e.code.toNat ≤ 8 := by cases e <;> decide

theorem statusDone_busy (c : BitVec 4) : (statusDone c).getLsbD 5 = false := by
  revert c; decide

theorem statusDone_done (c : BitVec 4) : (statusDone c).getLsbD 4 = true := by
  revert c; decide

/-- The status a command leaves. -/
theorem commandEnd_status (i : Instr) (s : State) :
    ∃ c : BitVec 4, c.toNat ≤ 8 ∧ (commandEnd i s).status = statusDone c := by
  rcases commandEnd_cases i s with ⟨out, _, h⟩ | ⟨e, _, h⟩ <;> rw [h]
  · exact ⟨0#4, by decide, rfl⟩
  · exact ⟨e.code, statusDone_code_le e, rfl⟩

theorem commandEnd_busy (i : Instr) (s : State) : (commandEnd i s).busy = false := by
  obtain ⟨c, _, h⟩ := commandEnd_status i s
  rw [State.busy, h, statusDone_busy]

theorem commandEnd_done (i : Instr) (s : State) : (commandEnd i s).done = true := by
  obtain ⟨c, _, h⟩ := commandEnd_status i s
  rw [State.done, h, statusDone_done]

/-- A command changes `STATUS`, `OUT_LEN` and `OUT`, and nothing else. -/
theorem commandEnd_frame (i : Instr) (s : State) :
    commandEnd i s = { s with
      status := (commandEnd i s).status, outLen := (commandEnd i s).outLen,
      outBuf := (commandEnd i s).outBuf } := by
  rcases commandEnd_cases i s with ⟨out, _, h⟩ | ⟨e, _, h⟩ <;> rw [h] <;> rfl

/-- Two states with the same input bytes and the same triple end a command alike. -/
theorem commandEnd_congr {i : Instr} {s u : State}
    (h : commandFunction i s.filterTriple s.inBytes = commandFunction i u.filterTriple u.inBytes) :
    (commandEnd i s).status = (commandEnd i u).status ∧
      (commandEnd i s).outLen = (commandEnd i u).outLen ∧
      (commandEnd i s).outBuf = (commandEnd i u).outBuf := by
  unfold commandEnd
  rw [h]
  cases commandFunction i u.filterTriple u.inBytes <;> exact ⟨rfl, rfl, rfl⟩

end Sys2Proof.Machine
end

