-- ==== Sys2Proof/Laws/HostPort.lean ====
section
/-! SUPPORT. The host's accesses and the step, once: everything an answered access and an answered
step can do. -/

namespace Sys2Proof.Machine

/-- Everything an answered host access can do to the state. -/
inductive HostEffect (a : HostAccess) (s : State) : State → Prop where
  /-- The access was ignored: a write of a read-only register, or any write while `BUSY = 1`. -/
  | ignored : HostEffect a s s
  /-- A whole command, in the atomic reading. -/
  | command (i : Instr) (idle : s.busy = false) (fits : s.lenFits s.inLen = true) :
      HostEffect a s (commandEnd i s)
  /-- A reserved code. -/
  | reserved (idle : s.busy = false) : HostEffect a s s.badCommand
  /-- The start of a command that takes time. -/
  | started (c : Byte) (r : Running) (start : a = .startCmd c r.left) (idle : s.busy = false)
      (fits : s.lenFits s.inLen = true) : HostEffect a s { s.begin with running := some r }
  /-- A write of `IN_LEN`. -/
  | inLen (v : Nat) (idle : s.busy = false) (rep : s.lenRepresentable v = true) :
      HostEffect a s { s with inLen := v }
  /-- A write of a filter register. -/
  | filter (src dst : Word) (dport : Half) (idle : s.busy = false) :
      HostEffect a s { s with fltSrc := src, fltDst := dst, fltDport := dport }
  /-- A read. -/
  | read (v d : Nat) : HostEffect a s { s with hostReads := v :: s.hostReads, draws := d }
  /-- A write of a byte of `IN`. -/
  | inByte (x : Nat) (b : Byte) (idle : s.busy = false) (ex : s.addrExists x = true) :
      HostEffect a s { s with inBuf := s.inBuf.write x b }
  /-- A reset. -/
  | reset : HostEffect a s s.applyReset
  /-- `MOVE`. -/
  | move (idle : s.busy = false) (fits : s.lenFits s.outLen = true) :
      HostEffect a s { s with inBuf := s.inBuf.writeBytes 0 s.outBytes, inLen := s.outLen }

theorem writeCmd_next {a : HostAccess} {c : Byte} {s t : State} (h : writeCmd c s = .next t) :
    HostEffect a s t := by
  unfold writeCmd at h
  split at h
  · cases h; exact .ignored
  · next hb =>
    split at h
    · next i _ =>
      obtain ⟨hf, rfl⟩ := exec_next h
      exact .command i (by simpa using hb) hf
    · cases h; exact .reserved (by simpa using hb)

theorem startCmd_next {c : Byte} {k : Nat} {s t : State} (h : startCmd c k s = .next t) :
    HostEffect (.startCmd c k) s t := by
  unfold startCmd at h
  split at h
  · cases h; exact .ignored
  · next hb =>
    split at h
    · cases h; exact .reserved (by simpa using hb)
    · split at h
      · next hf => cases h; exact .started c _ rfl (by simpa using hb) hf
      · cases h

theorem writeField_next {r : Reg} {v : Nat} {put : State → State} {s t : State}
    (h : writeField r v put s = .next t) :
    t = s ∨ (s.busy = false ∧ s.regRepresentable r v = true ∧ t = put s) := by
  unfold writeField at h
  split at h
  · cases h; exact .inl rfl
  · next hb =>
    split at h
    · next hr => cases h; exact .inr ⟨by simpa using hb, hr, rfl⟩
    · cases h

theorem hostWriteReg_next {a : HostAccess} {r : Reg} {v : Nat} {s t : State}
    (h : hostWriteReg r v s = .next t) : HostEffect a s t := by
  cases r with
  | cmd =>
    simp only [hostWriteReg] at h
    split at h
    · cases h; exact .ignored
    · split at h
      · exact writeCmd_next h
      · cases h
  | status => cases h; exact .ignored
  | outLen => cases h; exact .ignored
  | inLen =>
    simp only [hostWriteReg] at h
    rcases writeField_next h with rfl | ⟨hb, hr, rfl⟩
    · exact .ignored
    · exact .inLen v hb hr
  | fltSrc =>
    simp only [hostWriteReg] at h
    rcases writeField_next h with rfl | ⟨hb, hr, rfl⟩
    · exact .ignored
    · exact .filter _ s.fltDst s.fltDport hb
  | fltDst =>
    simp only [hostWriteReg] at h
    rcases writeField_next h with rfl | ⟨hb, hr, rfl⟩
    · exact .ignored
    · exact .filter s.fltSrc _ s.fltDport hb
  | fltDport =>
    simp only [hostWriteReg] at h
    rcases writeField_next h with rfl | ⟨hb, hr, rfl⟩
    · exact .ignored
    · exact .filter s.fltSrc s.fltDst _ hb

theorem hostReadReg_effect (r : Reg) (s : State) :
    ∃ v d, hostReadReg r s = { s with hostReads := v :: s.hostReads, draws := d } := by
  cases r with
  | outLen =>
    simp only [hostReadReg]
    split
    · exact ⟨_, s.draws + 1, rfl⟩
    · exact ⟨_, s.draws, rfl⟩
  | _ => exact ⟨_, s.draws, rfl⟩

theorem hostReadIn_next {a : Nat} {s t : State} (h : hostReadIn a s = .next t) :
    ∃ v d, t = { s with hostReads := v :: s.hostReads, draws := d } := by
  unfold hostReadIn at h
  split at h
  · cases h; exact ⟨_, s.draws, rfl⟩
  · cases h

theorem hostReadOut_next {a : Nat} {s t : State} (h : hostReadOut a s = .next t) :
    ∃ v d, t = { s with hostReads := v :: s.hostReads, draws := d } := by
  unfold hostReadOut at h
  split at h
  · split at h
    · cases h; exact ⟨_, s.draws + 1, rfl⟩
    · split at h
      · cases h; exact ⟨_, s.draws, rfl⟩
      · cases h
  · cases h

/-- Everything an answered host access can do. -/
theorem hostServe_next {a : HostAccess} {s t : State} (h : hostServe a s = .next t) :
    HostEffect a s t := by
  cases a with
  | writeReg r v => exact hostWriteReg_next h
  | startCmd c k => exact startCmd_next h
  | readReg r =>
    obtain ⟨v, d, hv⟩ := hostReadReg_effect r s
    simp only [hostServe] at h
    cases h
    rw [hv]
    exact .read v d
  | writeIn x b =>
    simp only [hostServe, hostWriteIn] at h
    split at h
    · next hx =>
      split at h
      · cases h; exact .ignored
      · next hb => cases h; exact .inByte x b (by simpa using hb) hx
    · cases h
  | readIn x =>
    obtain ⟨v, d, rfl⟩ := hostReadIn_next h
    exact .read v d
  | readOut x =>
    obtain ⟨v, d, rfl⟩ := hostReadOut_next h
    exact .read v d
  | reset => cases h; exact .reset
  | move =>
    simp only [hostServe, hostMove] at h
    split at h
    · cases h; exact .ignored
    · next hb =>
      split at h
      · next hf => cases h; exact .move (by simpa using hb) hf
      · cases h

/-- Everything an answered step can do: wait, serve one access, or complete a command in
progress. -/
theorem step_next {s t : State} (h : step s = .next t) :
    (s.running = none ∧ s.pending = [] ∧ t = s) ∨
    (∃ a rest, s.running = none ∧ s.pending = a :: rest ∧
      hostServe a { s with pending := rest } = .next t) ∨
    (∃ (r : Running) (left : Nat) (a : HostAccess) (rest : List HostAccess),
      s.running = some r ∧ r.left = left + 1 ∧ s.pending = a :: rest ∧
      hostServe a { s with pending := rest, running := some { r with left := left } } = .next t) ∨
    (∃ r : Running, s.running = some r ∧ (r.left = 0 ∨ s.pending = []) ∧
      exec r.instr { s with running := none } = .next t) := by
  unfold step at h
  split at h
  · next r hr =>
    unfold stepRunning at h
    split at h
    · next left a rest hl hp => exact .inr (.inr (.inl ⟨r, left, a, rest, hr, hl, hp, h⟩))
    · next hno =>
      refine .inr (.inr (.inr ⟨r, hr, ?_, h⟩))
      rcases hleft : r.left with _ | left
      · exact .inl rfl
      · rcases hp : s.pending with _ | ⟨a, rest⟩
        · exact .inr rfl
        · exact absurd hp (hno left a rest hleft)
  · next hr =>
    unfold stepIdle at h
    split at h
    · next hp => cases h; exact .inl ⟨hr, hp, rfl⟩
    · next a rest hp => exact .inr (.inl ⟨a, rest, hr, hp, h⟩)

theorem step_of_idle {s : State} (h : s.running = none) : step s = stepIdle s := by
  unfold step
  rw [h]

theorem step_of_running {s : State} {r : Running} (h : s.running = some r) :
    step s = stepRunning r s := by
  unfold step
  rw [h]

theorem stepIdle_cons {s : State} {a : HostAccess} {rest : List HostAccess}
    (h : s.pending = a :: rest) : stepIdle s = hostServe a { s with pending := rest } := by
  unfold stepIdle
  rw [h]

/-- An idle core with a write of `CMD` next takes it as its step. -/
theorem step_writeCmd {s : State} {c : Byte} {rest : List HostAccess} (hr : s.running = none)
    (hb : s.busy = false) (hp : s.pending = .writeReg .cmd c.toNat :: rest) :
    step s = writeCmd c { s with pending := rest } := by
  have hb' : ({ s with pending := rest } : State).busy = false := hb
  have hc : ({ s with pending := rest } : State).regRepresentable .cmd c.toNat = true :=
    decide_eq_true c.isLt
  rw [step_of_idle hr, stepIdle_cons hp, hostServe, hostWriteReg]
  rw [if_neg (by rw [hb']; decide), if_pos hc, BitVec.ofNat_toNat, BitVec.setWidth_eq]

/-- A write of a command's code runs the command, where `BUSY = 0`. -/
theorem writeCmd_ok {s : State} {c : Byte} {i : Instr} (hb : s.busy = false)
    (hd : decodeByte c = .ok i) : writeCmd c s = exec i s := by
  rw [writeCmd, if_neg (by rw [hb]; decide), hd]

/-- A write of a reserved code ends with `BadCommand`, where `BUSY = 0`. -/
theorem writeCmd_reserved {s : State} {c : Byte} {e : DecodeError} (hb : s.busy = false)
    (hd : decodeByte c = .error e) : writeCmd c s = .next s.badCommand := by
  rw [writeCmd, if_neg (by rw [hb]; decide), hd]

/-! ### What the accesses do while `BUSY = 1` -/

theorem busy_writeReg {s : State} (hb : s.busy = true) (r : Reg) (v : Nat) :
    hostServe (.writeReg r v) s = .next s := by
  cases r <;> simp [hostServe, hostWriteReg, writeField, hb]

theorem busy_startCmd {s : State} (hb : s.busy = true) (c : Byte) (k : Nat) :
    hostServe (.startCmd c k) s = .next s := by
  simp [hostServe, startCmd, hb]

theorem busy_writeIn {s : State} (hb : s.busy = true) {a : Nat} (hx : s.addrExists a = true)
    (b : Byte) : hostServe (.writeIn a b) s = .next s := by
  simp [hostServe, hostWriteIn, hb, hx]

theorem busy_move {s : State} (hb : s.busy = true) : hostServe .move s = .next s := by
  simp [hostServe, hostMove, hb]

end Sys2Proof.Machine
end

