-- ==== Sys2Proof/Laws/PerInstr.lean ====
section
/-! SUPPORT. Statements made per command: the command format of spec/30_encoding.md R60. -/

namespace Sys2Proof.Laws.CommandFormat

/-- A command is one byte, that byte is no reserved code, and it decodes to the command. -/
def Statement (i : Instr) : Prop :=
  i.wellFormed = true ∧ (encode i).length = 1 ∧ commandByteWellFormed (opcode i) = true ∧
    decodeByte (opcode i) = .ok i

theorem a85dec : Statement .a85dec := ⟨rfl, rfl, by decide, rfl⟩

theorem parpack : Statement .parpack := ⟨rfl, rfl, by decide, rfl⟩

theorem pktrx : Statement .pktrx := ⟨rfl, rfl, by decide, rfl⟩

end Sys2Proof.Laws.CommandFormat
end

