-- ==== Sys2Proof/Laws/Run.lean ====
section
/-! SUPPORT. Runs of several steps, in terms of one step. -/

namespace Sys2Proof.Machine

/-- A run whose first step answers goes on from its state, for any machine. -/
theorem core_run_succ {M : Host.Core} {k : Nat} {s t : M.State} (h : M.step s = .next t) :
    M.run (k + 1) s = M.run k t := by
  rw [Host.Core.run, h]

/-- A run that answers goes on with one more step, for any machine. -/
theorem core_run_snoc {M : Host.Core} {k : Nat} {s t u : M.State} (h : M.run k s = .next t)
    (hu : M.step t = .next u) : M.run (k + 1) s = .next u := by
  induction k generalizing s with
  | zero =>
    rw [Host.Core.run] at h
    cases h
    rw [core_run_succ hu]
    rfl
  | succ k ih =>
    rw [Host.Core.run] at h
    split at h
    · next v hv => rw [core_run_succ hv]; exact ih h
    · cases h
    · cases h

theorem run_succ {k : Nat} {s t : State} (h : step s = .next t) :
    Sys2Proof.core.run (k + 1) s = Sys2Proof.core.run k t :=
  core_run_succ (M := Sys2Proof.core) h

theorem run_snoc {k : Nat} {s t u : State} (h : Sys2Proof.core.run k s = .next t)
    (hu : step t = .next u) : Sys2Proof.core.run (k + 1) s = .next u :=
  core_run_snoc (M := Sys2Proof.core) h hu

end Sys2Proof.Machine
end

