-- ==== Sys2Proof/Tests/Slice0.lean ====
section
/-! SUPPORT. The model's own tests, and a witness for the hypotheses of every statement. Expected
values are those of the spec's vectors (spec/95_test_vectors.md), named V<n> and S<n> in the comment of
each, or are worked by hand from the rule the comment names. -/

namespace Sys2Proof.Tests

-- One theorem after another: the kernel evaluations of this file side by side ask for a thread each.
set_option Elab.async false

open Sys2Proof.Machine Sys2Proof.Certificates

/-! ### Helpers -/

/-- The bytes of a list of numbers. -/
def bytes (l : List Nat) : List Byte := l.map (BitVec.ofNat 8 ·)

/-- The bytes of an ASCII text. -/
def ascii (s : String) : List Byte := s.toList.map fun c => BitVec.ofNat 8 c.toNat

/-- The reset state with an input loaded. -/
def loaded (bs : List Byte) : State :=
  { State.reset with inBuf := Memory.writeBytes [] 0 bs, inLen := bs.length }

/-- `loaded` with a filter triple. -/
def filtered (f : FilterTriple) (bs : List Byte) : State :=
  { loaded bs with fltSrc := f.src, fltDst := f.dst, fltDport := f.dport }

/-- A command ended with this status byte and this output. -/
def endsWith (r : Result) (status : Byte) (out : List Byte) : Bool :=
  match r with
  | .next t => t.status == status && t.outLen == out.length && t.outBytes == out
  | _ => false

/-- A command or an access was refused for this reason. -/
def refusedAs (r : Result) (why : Refusal) : Bool :=
  match r with
  | .refused w => w == why
  | _ => false

/-- An access faulted for this reason. -/
def faultsAs (r : Result) (why : Fault) : Bool :=
  match r with
  | .fault w => w == why
  | _ => false

/-- The reset state with the host's accesses to come. -/
def asked (l : List HostAccess) : State := { State.reset with pending := l }

/-- A machine with four bytes in each buffer. -/
def small (inLen : Nat) : State := { State.reset with nMax := some 4, inLen := inLen }

/-- A machine with `A85DEC` in progress. -/
def inProgress (left : Nat) : State :=
  { State.reset with status := 0x20#8, running := some { instr := .a85dec, left := left } }

/-- A machine whose last command gave one byte of output. -/
def oneByteOut : State := { State.reset with status := 0x10#8, outLen := 1, outBuf := [(0, 0x41#8)] }

/-- The 40-byte sample packet `S` (S5). -/
def sample : List Byte := bytes
  [0x45, 0x00, 0x00, 0x28, 0x75, 0x81, 0x40, 0x00, 0x40, 0x11, 0xc7, 0x41, 0x7f, 0x00, 0x00, 0x01,
    0x7f, 0x00, 0x00, 0x01, 0xc9, 0x64, 0x1f, 0xbd, 0x00, 0x14, 0xcc, 0x52] ++ ascii "rust is cool"

/-- The filter `F1` (S5). -/
def filterF1 : FilterTriple where
  src := 0x7F000001#32
  dst := 0x7F000001#32
  dport := 8125#16

/-- A header of zero bytes but for a declared length below 256. -/
def lengthHeader (n : Nat) : List Byte :=
  List.replicate 25 0x00#8 ++ [BitVec.ofNat 8 n, 0x00#8, 0x00#8]

/-! ### Well-formedness: each reserved range is refused (R77) -/

theorem smoke_code_zero_ill_formed : commandByteWellFormed 0x00#8 = false := by decide

theorem smoke_codes_from_four_ill_formed :
    commandByteWellFormed 0x04#8 = false ∧ commandByteWellFormed 0xFF#8 = false := by decide

theorem smoke_codes_well_formed :
    ([0x01#8, 0x02#8, 0x03#8].map commandByteWellFormed) = [true, true, true] := by decide

/-! ### Decoding: the words of R60's table, written out bit by bit -/

theorem test_decode_a85dec : decodeByte 0b00000001#8 = .ok .a85dec := by decide

theorem test_decode_parpack : decodeByte 0b00000010#8 = .ok .parpack := by decide

theorem test_decode_pktrx : decodeByte 0b00000011#8 = .ok .pktrx := by decide

/-- V53's codes. -/
theorem test_decode_reserved :
    decodeByte 0x00#8 = .error (.reserved 0x00#8) ∧ decodeByte 0x04#8 = .error (.reserved 0x04#8) ∧
      decodeByte 0xFF#8 = .error (.reserved 0xFF#8) := by decide

theorem test_decode_empty : decode [] = .error .empty := by decide

/-! ### The commands, on the spec's vectors -/

/-- V4: a full group and a partial group of two. -/
theorem test_a85dec_hello :
    endsWith (exec .a85dec (loaded (ascii "<~87cURDZ~>"))) 0x10#8 (ascii "Hello") = true := by
  decide +kernel

/-- V18: a byte of 128 outranks an overflowing group before it. -/
theorem test_a85dec_non_ascii_first :
    endsWith (exec .a85dec (loaded (ascii "<~uuuuu" ++ [0x80#8] ++ ascii "~>"))) 0x12#8 [] = true := by
  decide +kernel

/-- V27: eight payloads repacked. -/
theorem test_parpack_packs :
    endsWith (exec .parpack (loaded (bytes [0x41, 0xa0, 0x90, 0x69, 0x44, 0x2b, 0x18, 0x8e])))
      0x10#8 (ascii "ABCDEFG") = true := by
  decide +kernel

/-- V29b: seven retained bytes. -/
theorem test_parpack_misaligned :
    endsWith (exec .parpack (loaded (bytes [0x00, 0x90, 0xd1, 0xac, 0x78, 0x4d, 0xaf])))
      0x15#8 [] = true := by
  decide +kernel

/-- S5 (V30): the sample packet. -/
theorem test_pktrx_sample :
    endsWith (exec .pktrx (filtered filterF1 sample)) 0x10#8 (ascii "rust is cool") = true := by
  decide +kernel

/-- V44: a header of zeros after the sample: `BadLength`, and the payload is not delivered. -/
theorem test_pktrx_bad_length :
    endsWith (exec .pktrx (filtered filterF1 (sample ++ List.replicate 28 0x00#8))) 0x17#8 [] =
      true := by
  decide +kernel

/-- S2 (V20): the classification of a byte. -/
theorem test_correct_parity :
    ([0xb2#8, 0x00#8, 0xff#8, 0x81#8, 0x03#8].map correctParity).all id ∧
      ([0xb3#8, 0x01#8, 0xfe#8, 0x80#8, 0x02#8].map correctParity).all not := by decide

/-- S4 (V46) and V48: the fold. -/
theorem test_fold :
    fold16 0x0016#16 0x0003#16 = 0x0019#16 ∧ fold16 0x00FE#16 0x0001#16 = 0x00FF#16 ∧
      fold16 0xFFFE#16 0x0003#16 = 0x0002#16 ∧ fold16 0x8000#16 0x8000#16 = 0x0001#16 := by decide

/-- V49: checksums. -/
theorem test_csum :
    csum [] = 0xFFFF#16 ∧ csum [0x12#8, 0x34#8, 0xed#8, 0xcb#8] = 0xFFFF#16 ∧
      csum [0x12#8] = 0x1200#16 := by decide

/-! ### The host's side -/

/-- V53: a reserved code. -/
theorem test_reserved_code : endsWith (step (asked (scriptRaw 0x04#8))) 0x18#8 [] = true := by
  decide +kernel

/-- V51: the first command after reset sees an empty input, whichever way it is written. -/
theorem test_first_command :
    endsWith (step (asked (scriptCommand .a85dec))) 0x11#8 [] = true ∧
      endsWith (step (State.reset.withFetchWord 8 1)) 0x11#8 [] = true := by
  decide +kernel

/-- R40: an address at `N_MAX` does not exist. -/
theorem test_address_past_buffer :
    faultsAs (hostServe (.writeIn 4 0x00#8) (small 0)) (.inAddress 4) = true ∧
      faultsAs (hostServe (.readOut 4) (small 0)) (.outAddress 4) = true := by decide

/-- R16: with `N_MAX = 4`, `LW` is 3, so 7 is a value of `IN_LEN` and 8 is none. -/
theorem test_length_width :
    (small 0).regRepresentable .inLen 7 = true ∧
      refusedAs (hostServe (.writeReg .inLen 8) (small 0)) (.notRepresentable .inLen 8) = true := by
  decide +kernel

/-! ### Witnesses: encoding and stepping -/

/-- DecodeOfEncode. -/
theorem witness_well_formed :
    Instr.a85dec.wellFormed = true ∧ Instr.parpack.wellFormed = true ∧
      Instr.pktrx.wellFormed = true := by decide

/-- DecodeOnlyEncodings. -/
theorem witness_decodes : decode [0x03#8, 0x01#8] = .ok (.pktrx, [0x01#8]) := by decide

/-- StepRunsWrittenCommand. -/
theorem witness_written_command :
    Idle (asked [.writeReg .cmd 2, .move]) ∧
      (asked [.writeReg .cmd 2, .move]).pending = .writeReg .cmd (0x02#8 : Byte).toNat :: [.move] ∧
      decode [0x02#8] = .ok (.parpack, []) ∧ Instr.parpack.wellFormed = true := by
  unfold Idle
  decide

/-- StepRunsFetchWord. -/
theorem witness_fetch_word : decodeTableWord 8 3 = some .pktrx := by decide

/-- ReservedCodeRaisesBadCommand, at the ends of the two ranges. -/
theorem witness_reserved_codes :
    ([0, 4, 255].all fun n =>
      decide ((asked [.writeReg .cmd n]).pending = [.writeReg .cmd (BitVec.ofNat 8 n).toNat]) &&
        decide ((BitVec.ofNat 8 n).toNat = 0 ∨ 4 ≤ (BitVec.ofNat 8 n).toNat)) = true ∧
      Idle (asked [.writeReg .cmd 4]) := by
  unfold Idle
  decide

/-- IdleCoreWaits. -/
theorem witness_idle : State.reset.running = none ∧ State.reset.pending = [] := by decide

/-! ### Witnesses: every command -/

/-- CommandAnswersWithinCapacity, both clauses, at `IN_LEN = N_MAX` and one more. -/
theorem witness_capacity :
    (small 4).lenFits (small 4).inLen = true ∧ (small 5).lenFits (small 5).inLen = false := by decide

/-- CommandFrame, OutputNeverLongerThanInput. -/
theorem witness_exec_next (i : Instr) : ∃ t, exec i State.reset = .next t := by
  cases i <;> exact ⟨_, rfl⟩

/-- CommandsArePure: two different states with the same input and the same filter. -/
theorem witness_pure (i : Instr) :
    State.reset ≠ oneByteOut ∧ State.reset.inBytes = oneByteOut.inBytes ∧
      State.reset.filterTriple = oneByteOut.filterTriple ∧
      (∃ t, exec i State.reset = .next t) ∧ ∃ v, exec i oneByteOut = .next v := by
  refine ⟨by decide, rfl, rfl, ?_, ?_⟩ <;> cases i <;> exact ⟨_, rfl⟩

/-! ### Witnesses: A85DEC -/

/-- A85decErrorPrecedence, no envelope: the input `~` (of V15's kind) holds no start delimiter. -/
theorem witness_missing_delimiter :
    (loaded [0x7E#8]).lenFits (loaded [0x7E#8]).inLen = true ∧
      ¬ ∃ p e, FirstStart (loaded [0x7E#8]).inBytes p ∧ FirstEnd (loaded [0x7E#8]).inBytes p e := by
  have hB : (loaded [0x7E#8]).inBytes = [0x7E#8] := by decide
  refine ⟨rfl, ?_⟩
  rintro ⟨p, e, ⟨⟨-, h⟩, -⟩, -⟩
  rw [hB] at h
  simp at h

/-- An envelope of one interior byte at the start of the input meets the hypotheses that locate
it. -/
theorem envelope_located (b : Byte) (h : b ≠ 0x7E#8) :
    FirstStart [0x3C#8, 0x7E#8, b, 0x7E#8, 0x3E#8] 0 ∧
      FirstEnd [0x3C#8, 0x7E#8, b, 0x7E#8, 0x3E#8] 0 3 := by
  refine ⟨⟨⟨rfl, rfl⟩, fun j hj => absurd hj (Nat.not_lt_zero j)⟩, Nat.le_succ 2, ⟨rfl, rfl⟩, ?_⟩
  intro j h2 h3 hp
  obtain rfl : j = 2 := by omega
  exact h (Option.some.inj hp.1)

/-- A85decErrorPrecedence, the located envelope on a state: for any interior byte. -/
theorem witness_located (b : Byte) (h : b ≠ 0x7E#8) :
    ∃ s : State, s.lenFits s.inLen = true ∧ FirstStart s.inBytes 0 ∧ FirstEnd s.inBytes 0 3 ∧
      [b] = (s.inBytes.take 3).drop 2 := by
  have hB : (loaded [0x3C#8, 0x7E#8, b, 0x7E#8, 0x3E#8]).inBytes =
      [0x3C#8, 0x7E#8, b, 0x7E#8, 0x3E#8] := rfl
  refine ⟨loaded [0x3C#8, 0x7E#8, b, 0x7E#8, 0x3E#8], rfl, ?_, ?_, by rw [hB]; rfl⟩
  · rw [hB]
    exact (envelope_located b h).1
  · rw [hB]
    exact (envelope_located b h).2

/-- A85decErrorPrecedence, first clause: byte 128, the least that is not ASCII. -/
theorem witness_non_ascii : (0x80#8 : Byte) ≠ 0x7E#8 ∧ ∃ b ∈ [(0x80#8 : Byte)], 128 ≤ b.toNat := by
  decide

/-- A85decErrorPrecedence, second clause: byte 118, the least above the symbols. -/
theorem witness_invalid_symbol :
    (∀ b ∈ [(118#8 : Byte)], b.toNat < 128) ∧
      ∃ b ∈ [(118#8 : Byte)], ¬ SymbolByte b ∧ ¬ BlankByte b := by
  unfold SymbolByte BlankByte
  decide

/-- A85decErrorPrecedence, third clause: the single symbol `s` (V12) pads to a group of `2^32` or
more. -/
theorem witness_overflow :
    CleanInterior (ascii "s") ∧ SomeGroupOverflows (stripped (ascii "s")) := by
  refine ⟨?_, 0, ?_⟩
  · unfold CleanInterior SymbolByte BlankByte
    decide
  · decide

/-- A85decDecodesGroups: the single symbol `r` (V7) is the greatest that does not overflow. -/
theorem witness_decodes_groups :
    CleanInterior (ascii "r") ∧ ¬ SomeGroupOverflows (stripped (ascii "r")) := by
  refine ⟨?_, ?_⟩
  · unfold CleanInterior SymbolByte BlankByte
    decide
  · rintro ⟨g, hg, h⟩
    have hc : groupCount (stripped (ascii "r")) = 1 := by decide
    obtain rfl : g = 0 := by omega
    revert h
    decide

/-- A85decInvertsEncoding: V4's symbols with a line feed among them, between bytes that are no part
of the envelope (V14). -/
theorem witness_inverts :
    (loaded (ascii "x" ++ [0x3C#8, 0x7E#8] ++ ascii "87c\nURDZ" ++ [0x7E#8, 0x3E#8] ++
        ascii "y")).inBytes =
      ascii "x" ++ [0x3C#8, 0x7E#8] ++ ascii "87c\nURDZ" ++ [0x7E#8, 0x3E#8] ++ ascii "y" ∧
    (∀ j, ¬ PairAt (ascii "x") 0x3C#8 0x7E#8 j) ∧
      stripped (ascii "87c\nURDZ") = encodeRadix85 (ascii "Hello") := by
  refine ⟨by decide +kernel, ?_, by decide +kernel⟩
  rintro j ⟨-, h⟩
  simp [ascii] at h

/-! ### Witnesses: PARPACK -/

/-- ParpackOutcome, both clauses, ParpackKeepsPayloadBits: V21 and V22. -/
theorem witness_parpack_counts :
    (keptBytes (loaded (List.replicate 7 0x00#8)).inBytes).length % 8 ≠ 0 ∧
      (keptBytes (loaded (List.replicate 8 0x00#8)).inBytes).length % 8 = 0 := by decide +kernel

/-- ParpackDropsIncorrectBytes: V28 and V29, two inputs with one retained sequence. -/
theorem witness_parpack_drops :
    keptBytes (loaded (bytes [0x00, 0x90, 0xd1, 0xac, 0x78, 0x4d, 0xaf, 0x9a])).inBytes =
        keptBytes (loaded (bytes [0x01, 0x00, 0x90, 0xd1, 0x80, 0xfe, 0xac, 0x78, 0x4d, 0xaf, 0x9a,
          0x02])).inBytes ∧
      endsWith (exec .parpack (loaded (bytes [0x01, 0x00, 0x90, 0xd1, 0x80, 0xfe, 0xac, 0x78, 0x4d,
        0xaf, 0x9a, 0x02]))) 0x10#8 (bytes [0x01, 0x23, 0x45, 0x67, 0x89, 0xab, 0xcd]) = true := by
  decide +kernel

/-! ### Witnesses: PKTRX -/

/-- PktrxOutcomes, the boundary lengths of its clauses. -/
theorem witness_pktrx_lengths :
    (loaded []).inLen = 0 ∧ (loaded (sample.take 1)).inLen = 1 ∧
      (loaded (sample.take 27)).inLen = 27 ∧ (loaded (sample.take 28)).inLen = 28 := by decide

/-- PktrxSinglePacket: the sample is a complete packet, kept by `F1` (S5), and the shortest packet,
of declared length 8, is complete (V45). -/
theorem witness_complete_packet :
    CompletePacket (filtered filterF1 sample).inBytes ∧
      keptPacket (filtered filterF1 sample).filterTriple (filtered filterF1 sample).inBytes = true ∧
      CompletePacket (lengthHeader 8) := by
  unfold CompletePacket
  decide +kernel

/-- PktrxConcatenatesKeptPayloads: the sample and a stray part of a header (V39). -/
theorem witness_stream :
    (loaded (sample ++ sample.take 10)).inBytes = [sample].flatten ++ sample.take 10 ∧
      (∀ p ∈ [sample], CompletePacket p) ∧ BenignTail [sample] (sample.take 10) := by
  refine ⟨by decide +kernel, ?_, .inr (.inl ⟨by decide, by decide, by decide⟩)⟩
  unfold CompletePacket
  decide +kernel

/-- BenignTail, its other clauses: nothing left, and a packet of declared length 9 with no payload
byte (the shortest incomplete one), which 8 would complete. -/
theorem witness_benign_tails :
    BenignTail [] [] ∧ BenignTail [] (lengthHeader 9) ∧ ¬ BenignTail [] (lengthHeader 8) := by
  unfold BenignTail
  decide +kernel

/-- PktrxBadLength: a first packet of declared length 7 (V42), and one after the sample (V44). -/
theorem witness_bad_length :
    (loaded (lengthHeader 7)).inBytes = ([] : List (List Byte)).flatten ++ lengthHeader 7 ∧
      (loaded (sample ++ lengthHeader 0)).inBytes = [sample].flatten ++ lengthHeader 0 ∧
      (∀ p ∈ [sample], CompletePacket p) ∧ 28 ≤ (lengthHeader 7).length ∧
      declaredLength (lengthHeader 7) < 8 ∧ declaredLength (lengthHeader 0) < 8 := by
  unfold CompletePacket
  decide +kernel

/-! ### Witnesses: the host's accesses -/

/-- HostRegisterWrites, HostRegisterReads: an idle machine, a value at the edge of `LW`, and one past
it for each register. -/
theorem witness_register_values :
    (small 0).busy = false ∧ (small 0).lenRepresentable 7 = true ∧
      (small 0).regRepresentable .inLen 8 = false ∧
      (small 0).regRepresentable .cmd (2 ^ 8) = false ∧
      (small 0).regRepresentable .fltSrc (2 ^ 32) = false ∧
      (small 0).regRepresentable .fltDst (2 ^ 32) = false ∧
      (small 0).regRepresentable .fltDport (2 ^ 16) = false := by decide +kernel

/-- ReadsHaveNoSideEffect, one read of each kind. -/
theorem witness_reads :
    (∃ t, hostServe (.readReg .status) oneByteOut = .next t) ∧
      (∃ t, hostServe (.readIn 0) oneByteOut = .next t) ∧
      ∃ t, hostServe (.readOut 0) oneByteOut = .next t := ⟨⟨_, rfl⟩, ⟨_, rfl⟩, ⟨_, rfl⟩⟩

/-- HostWriteOfInputByte and HostReadOfOutputByte: the last address and the first past it. -/
theorem witness_addresses :
    (small 0).busy = false ∧ (small 0).addrExists 3 = true ∧ (small 0).addrExists 4 = false := by
  decide

/-- HostReadOfOutputByte: below `OUT_LEN` and at it. -/
theorem witness_output_addresses :
    oneByteOut.busy = false ∧ oneByteOut.addrExists 0 = true ∧ 0 < oneByteOut.outLen ∧
      oneByteOut.addrExists 1 = true ∧ oneByteOut.outLen ≤ 1 := by decide

/-- BusyIgnoresWrites, BusyReadsAnswer, BusyIgnoresMove. -/
theorem witness_busy : (inProgress 0).busy = true ∧ (inProgress 0).addrExists 0 = true := by decide

/-- StartedCommandIsBusy. -/
theorem witness_started :
    Idle (asked [.startCmd 0x01#8 1]) ∧
      (asked [.startCmd 0x01#8 1]).lenFits (asked [.startCmd 0x01#8 1]).inLen = true ∧
      decodeByte 0x01#8 = .ok .a85dec ∧
      (asked [.startCmd 0x01#8 1]).pending = .startCmd 0x01#8 1 :: [] := by
  unfold Idle
  decide

/-- The accesses of the next witness: three inside the run, one after it. -/
def duringRun : List HostAccess := [.writeReg .inLen 3, .writeIn 0 0xFF#8, .readReg .status]

/-- StartedCommandMatchesAtomic. -/
theorem witness_slow_command :
    Idle (asked (.startCmd 0x02#8 duringRun.length :: (duringRun ++ [.move]))) ∧
      decodeByte 0x02#8 = .ok .parpack ∧
      (∀ a ∈ duringRun,
        ServedWithoutReset (asked (.startCmd 0x02#8 duringRun.length :: (duringRun ++ [.move]))) a) := by
  refine ⟨⟨rfl, rfl⟩, rfl, ?_⟩
  simp [duringRun, ServedWithoutReset, asked, State.reset, State.addrExists]

/-! ### Witnesses: the invariant -/

/-- The invariant of a machine with a command in progress. -/
theorem witness_running_invariant (left : Nat) : StateInv (inProgress left) where
  inCanonical := List.Pairwise.nil
  outCanonical := List.Pairwise.nil
  inExists := fun _ h => absurd h List.not_mem_nil
  outListed := fun a => by simp [inProgress, State.reset]
  outFits := rfl
  inLenRepresentable := rfl
  statusLegal := .inr (.inl rfl)
  busyRunning := by simp [inProgress, State.busy]
  outEmptyUnlessOk := fun _ => rfl
  runningFits := fun _ => rfl

/-- RunningCommandEnds, with none and with one access left in its run. -/
theorem witness_running_ends :
    StateInv (inProgress 0) ∧ StateInv (inProgress 1) ∧
      (inProgress 1).running = some { instr := .a85dec, left := 1 } ∧ (inProgress 1).pending = [] :=
  ⟨witness_running_invariant 0, witness_running_invariant 1, rfl, rfl⟩

/-- MoveMakesOutputTheInput: a machine with output. -/
theorem witness_output_invariant : StateInv oneByteOut ∧ oneByteOut.busy = false := by
  refine ⟨?_, rfl⟩
  constructor
  case outListed =>
    intro a
    simp only [oneByteOut, Memory.read_cons, Memory.read_nil]
    split <;> simp <;> omega
  case inExists => exact fun _ h => absurd h List.not_mem_nil
  case statusLegal => exact .inr (.inr ⟨0#4, by decide, rfl⟩)
  case outEmptyUnlessOk => exact fun h => absurd rfl h
  case inCanonical => exact List.Pairwise.nil
  case outCanonical => exact List.pairwise_singleton _ _
  all_goals first | rfl | exact fun _ => rfl

/-- LoadMakesBytesTheInput: an empty and a two-byte script line. -/
theorem witness_load :
    Idle (asked (scriptLoad [] ++ [.move])) ∧ Idle (asked (scriptLoad [0x01#8, 0x02#8] ++ [.move])) ∧
      (asked (scriptLoad [0x01#8, 0x02#8] ++ [.move])).lenFits 2 = true := by
  unfold Idle
  decide

/-- StepKeepsInvariant, StepKeepsCapacity: a command in progress completes. -/
theorem witness_step : StateInv (inProgress 0) ∧ ∃ t, step (inProgress 0) = .next t :=
  ⟨witness_running_invariant 0, _, rfl⟩

/-- LegalHostNeverStopsTheMachine: a legal read of `OUT`. -/
theorem witness_legal_host :
    StateInv { oneByteOut with pending := [.readOut 0] } ∧
      hostNextLegal { oneByteOut with pending := [.readOut 0] } := by
  obtain ⟨h, -⟩ := witness_output_invariant
  refine ⟨⟨h.inCanonical, h.outCanonical, h.inExists, h.outListed, h.outFits, h.inLenRepresentable,
    h.statusLegal, h.busyRunning, h.outEmptyUnlessOk, h.runningFits⟩, ?_⟩
  intro a ha
  obtain rfl : HostAccess.readOut 0 = a := by simpa using ha
  decide

/-- AtomicCommandsNeverShowBusy. -/
theorem witness_atomic :
    Idle (asked [.writeReg .cmd 1]) ∧
      (∀ c d, (asked [.writeReg .cmd 1]).pending.head? ≠ some (.startCmd c d)) ∧
      ∃ t, step (asked [.writeReg .cmd 1]) = .next t := by
  refine ⟨⟨rfl, rfl⟩, ?_, _, rfl⟩
  intro c d h
  simp [asked] at h

end Sys2Proof.Tests
end

