-- ==== Sys2Proof/Proofs/Scope.lean ====
section
/-! The scope of the machine (spec/00_scope.md): a table word stands for a write of `CMD`, and no step
changes the parameter `N_MAX`. -/

namespace Sys2Proof.Machine

/-! ### A table word on an idle core -/

/-- A table word decodes to what its byte, written to `CMD`, decodes to. -/
theorem decodeTableWord_eq_some_iff {nbits w : Nat} {i : Instr} :
    decodeTableWord nbits w = some i ↔ decodeByte (tableByte nbits w) = .ok i := by
  cases h : decodeByte (tableByte nbits w) <;> simp [decodeTableWord, decode, h]

/-- The mask `0xDF` clears `BUSY`, bit 5 of `STATUS` (R15). -/
theorem withCommandByte_busy (s : State) (c : Byte) : (s.withCommandByte c).busy = false := by
  simp [State.busy, State.withCommandByte]

/-- The step from a placed command byte is the write of that byte to `CMD` on the cleared core. -/
theorem step_withCommandByte (s : State) (c : Byte) :
    step (s.withCommandByte c) =
      writeCmd c { s with running := none, status := s.status &&& 0xDF#8 } :=
  step_writeCmd (rest := s.pending) rfl (withCommandByte_busy s c) rfl

/-- Settles O6: the word's byte is the next write of `CMD`, on a core whose `BUSY` is clear. -/
theorem stepRunsFetchWord : Obligations.StepRunsFetchWord := by
  intro s nbits w i hword
  have hdecode := decodeTableWord_eq_some_iff.mp hword
  have hidle := withCommandByte_busy s (tableByte nbits w)
  rw [State.withFetchWord, step_withCommandByte]
  exact writeCmd_ok hidle hdecode

/-! ### The parameter `N_MAX` -/

@[simp] theorem commandEnd_nMax (i : Instr) (s : State) : (commandEnd i s).nMax = s.nMax := by
  rw [commandEnd_frame]

theorem exec_nMax {i : Instr} {s t : State} (h : exec i s = .next t) : t.nMax = s.nMax := by
  obtain ⟨-, rfl⟩ := exec_next h
  exact commandEnd_nMax i s

/-- No effect of a host access is on `N_MAX`: only a command's end and a reset build their state
anew, and both keep it. -/
theorem HostEffect.nMax {a : HostAccess} {s t : State} (h : HostEffect a s t) :
    t.nMax = s.nMax := by
  cases h with
  | command i => exact commandEnd_nMax i s
  | reset => exact State.applyReset_nMax s
  | reserved => simp [State.badCommand]
  | ignored | started | inLen | filter | read | inByte | move => rfl

theorem hostServe_nMax {a : HostAccess} {s t : State} (h : hostServe a s = .next t) :
    t.nMax = s.nMax :=
  (hostServe_next h).nMax

/-- Settles O48, by the four things a step can do: wait, serve an access on the idle core or inside a
command's run, or complete the command. -/
theorem stepKeepsCapacity : Obligations.StepKeepsCapacity := by
  intro s t h
  rcases step_next h with ⟨-, -, rfl⟩ | ⟨a, rest, -, -, hserve⟩ | ⟨r, left, a, rest, -, -, -, hserve⟩ |
    ⟨r, -, -, hexec⟩
  · rfl
  · exact (hostServe_nMax hserve :)
  · exact (hostServe_nMax hserve :)
  · exact (exec_nMax hexec :)

end Sys2Proof.Machine
end

/-! The state of the machine (spec/10_state.md): its invariant, the frame of the commands, the host's
accesses and the runs of several steps. -/

namespace Sys2Proof.Machine

open Sys2Proof.Certificates

/-! ### `STATUS`, lengths and buffers -/

theorem State.begin_busy (s : State) : s.begin.busy = true := by
  simp [State.busy, statusBusy]

theorem State.begin_done (s : State) : s.begin.done = false := by
  simp [State.done, statusBusy]

theorem State.raiseError_busy (s : State) (e : CmdError) : (s.raiseError e).busy = false :=
  statusDone_busy e.code

theorem State.lenFits_zero (s : State) : s.lenFits 0 = true := by
  unfold State.lenFits
  split <;> simp

/-- The valid output is as long as `OUT_LEN` says (R13). -/
@[simp] theorem outBytes_length (s : State) : s.outBytes.length = s.outLen := by
  simp [State.outBytes]

theorem outBytes_getElem? {s : State} {a : Nat} (h : a < s.outLen) :
    s.outBytes[a]? = some (s.outByte a) := by
  simp [State.outBytes, h]

/-! ### The frame of a command -/

@[simp] theorem commandEnd_inBuf (i : Instr) (s : State) : (commandEnd i s).inBuf = s.inBuf := by
  rw [commandEnd_frame]

@[simp] theorem commandEnd_inLen (i : Instr) (s : State) : (commandEnd i s).inLen = s.inLen := by
  rw [commandEnd_frame]

@[simp] theorem commandEnd_inEpoch (i : Instr) (s : State) :
    (commandEnd i s).inEpoch = s.inEpoch := by
  rw [commandEnd_frame]

@[simp] theorem commandEnd_filterTriple (i : Instr) (s : State) :
    (commandEnd i s).filterTriple = s.filterTriple := by
  rw [commandEnd_frame]
  rfl

@[simp] theorem commandEnd_running (i : Instr) (s : State) :
    (commandEnd i s).running = s.running := by
  rw [commandEnd_frame]

@[simp] theorem commandEnd_pending (i : Instr) (s : State) :
    (commandEnd i s).pending = s.pending := by
  rw [commandEnd_frame]

/-- What `SameBesideOutcome` lists is every field but the three of an outcome. -/
theorem sameBesideOutcome_iff {s t : State} :
    SameBesideOutcome s t ↔
      t = { s with status := t.status, outLen := t.outLen, outBuf := t.outBuf } := by
  cases s
  cases t
  simp only [SameBesideOutcome, State.mk.injEq, true_and]
  tauto

/-- No command's output is longer than its input (R135, R158, R190). -/
theorem commandEnd_outLen_le (i : Instr) (s : State) : (commandEnd i s).outLen ≤ s.inLen := by
  rcases commandEnd_cases i s with ⟨out, hout, h⟩ | ⟨e, -, h⟩ <;> rw [h]
  · rw [succeeded_outLen, ← inBytes_length s]
    exact commandFunction_length hout
  · exact Nat.zero_le _

/-! ### The invariant in parts -/

/-- The clauses of the invariant on the input: `IN` is canonical and inside the buffer, and `IN_LEN`
is representable. -/
structure InputInv (s : State) : Prop where
  canonical : s.inBuf.wf
  existing : ∀ c ∈ s.inBuf, s.addrExists c.1 = true
  representable : s.lenRepresentable s.inLen = true

/-- The clauses of the invariant on `STATUS`, `OUT_LEN`, `OUT` and the command in progress. -/
structure OutcomeInv (s : State) : Prop where
  canonical : s.outBuf.wf
  listed : ∀ a, (s.outBuf.read a).isSome = true ↔ a < s.outLen
  fits : s.lenFits s.outLen = true
  statusLegal : s.status = 0x00#8 ∨ s.status = statusBusy ∨
    ∃ c : BitVec 4, c.toNat ≤ 8 ∧ s.status = statusDone c
  busyRunning : s.busy = s.running.isSome
  emptyUnlessOk : s.status ≠ statusDone 0#4 → s.outLen = 0

theorem StateInv.of_parts {s : State} (hin : InputInv s) (hout : OutcomeInv s)
    (hrun : s.running.isSome = true → s.lenFits s.inLen = true) : StateInv s :=
  ⟨hin.canonical, hout.canonical, hin.existing, hout.listed, hout.fits, hin.representable,
    hout.statusLegal, hout.busyRunning, hout.emptyUnlessOk, hrun⟩

theorem StateInv.input {s : State} (h : StateInv s) : InputInv s :=
  ⟨h.inCanonical, h.inExists, h.inLenRepresentable⟩

theorem StateInv.outcome {s : State} (h : StateInv s) : OutcomeInv s :=
  ⟨h.outCanonical, h.outListed, h.outFits, h.statusLegal, h.busyRunning, h.outEmptyUnlessOk⟩

theorem StateInv.running_eq_none {s : State} (h : StateInv s) (hb : s.busy = false) :
    s.running = none := by
  simpa [hb] using h.busyRunning

/-- What the host's side and the filter registers hold does not matter to the invariant, and neither
does how far a command in progress has come. -/
theorem StateInv.withHostSide {s : State} (h : StateInv s) (src dst : Word) (dport : Half)
    {r : Option Running} (hr : r.isSome = s.running.isSome) (p : List HostAccess) (l : List Nat)
    (d : Nat) :
    StateInv { s with fltSrc := src, fltDst := dst, fltDport := dport, running := r, pending := p,
                      hostReads := l, draws := d } where
  inCanonical := h.inCanonical
  outCanonical := h.outCanonical
  inExists := h.inExists
  outListed := h.outListed
  outFits := h.outFits
  inLenRepresentable := h.inLenRepresentable
  statusLegal := h.statusLegal
  busyRunning := h.busyRunning.trans hr.symm
  outEmptyUnlessOk := h.outEmptyUnlessOk
  runningFits := fun hrun => h.runningFits (hr.symm.trans hrun)

/-- A state without output meets the clauses on the outcome as soon as its `STATUS` is legal. -/
theorem OutcomeInv.of_empty {s : State} (hbuf : s.outBuf = []) (hlen : s.outLen = 0)
    (hstatus : s.status = 0x00#8 ∨ s.status = statusBusy ∨
      ∃ c : BitVec 4, c.toNat ≤ 8 ∧ s.status = statusDone c)
    (hbusy : s.busy = s.running.isSome) : OutcomeInv s where
  canonical := hbuf ▸ Memory.wf_nil
  listed a := by simp [hbuf, hlen]
  fits := hlen ▸ s.lenFits_zero
  statusLegal := hstatus
  busyRunning := hbusy
  emptyUnlessOk _ := hlen

/-- Taking an error on an idle core leaves a legal outcome (R213). -/
theorem outcomeInv_raiseError {s : State} (e : CmdError) (hr : s.running = none) :
    OutcomeInv (s.raiseError e) := by
  refine .of_empty rfl rfl (.inr (.inr ⟨e.code, statusDone_code_le e, rfl⟩)) ?_
  rw [State.raiseError_running, State.raiseError_busy, hr]
  rfl

/-- The bytes of `OUT` with a value after a command are those below `OUT_LEN` (R13). -/
theorem commandEnd_listed (i : Instr) (s : State) (a : Nat) :
    ((commandEnd i s).outBuf.read a).isSome = true ↔ a < (commandEnd i s).outLen := by
  rcases commandEnd_cases i s with ⟨out, -, h⟩ | ⟨e, -, h⟩ <;> rw [h]
  · simp [succeeded_read]
  · simp

theorem lenFits_commandEnd_outLen (i : Instr) {s : State} (hf : s.lenFits s.inLen = true) :
    (commandEnd i s).lenFits (commandEnd i s).outLen = true := by
  rw [State.lenFits_congr (commandEnd_nMax i s)]
  exact State.lenFits_mono (commandEnd_outLen_le i s) hf

theorem commandEnd_outBuf_wf (i : Instr) (s : State) : (commandEnd i s).outBuf.wf := by
  rcases commandEnd_cases i s with ⟨out, -, h⟩ | ⟨e, -, h⟩ <;> rw [h]
  · exact succeeded_wf s out
  · exact Memory.wf_nil

/-- A command that does not end with success has no output (R213). -/
theorem commandEnd_outLen_of_status_ne {i : Instr} {s : State}
    (hne : (commandEnd i s).status ≠ statusDone 0#4) : (commandEnd i s).outLen = 0 := by
  rcases commandEnd_cases i s with ⟨out, -, h⟩ | ⟨e, -, h⟩ <;> rw [h] at hne ⊢
  · exact absurd rfl hne
  · exact State.raiseError_outLen _ _

/-- A command leaves a legal outcome, with success or with an error. -/
theorem outcomeInv_commandEnd (i : Instr) {s : State} (hr : s.running = none)
    (hf : s.lenFits s.inLen = true) : OutcomeInv (commandEnd i s) where
  canonical := commandEnd_outBuf_wf i s
  listed := commandEnd_listed i s
  fits := lenFits_commandEnd_outLen i hf
  statusLegal := .inr (.inr (commandEnd_status i s))
  busyRunning := by
    rw [commandEnd_busy, commandEnd_running, hr]
    rfl
  emptyUnlessOk := commandEnd_outLen_of_status_ne

/-- A command keeps the invariant of a state that would be idle without it. -/
theorem stateInv_commandEnd (i : Instr) {s : State} (hin : InputInv s) (hr : s.running = none)
    (hf : s.lenFits s.inLen = true) : StateInv (commandEnd i s) := by
  refine .of_parts ?_ (outcomeInv_commandEnd i hr hf) (by simp [hr])
  rw [commandEnd_frame]
  exact ⟨hin.canonical, hin.existing, hin.representable⟩

/-- With both buffers empty, both lengths and `STATUS` zero and nothing in progress, as after a reset
(R240), the invariant holds. -/
theorem stateInv_of_cleared {s : State} (hin : s.inBuf = []) (hout : s.outBuf = [])
    (hinLen : s.inLen = 0) (houtLen : s.outLen = 0) (hstatus : s.status = 0#8)
    (hr : s.running = none) : StateInv s := by
  refine .of_parts ⟨hin ▸ Memory.wf_nil, by simp [hin], ?_⟩
    (.of_empty hout houtLen (.inl hstatus) ?_) (by simp [hr])
  · rw [hinLen]
    exact State.lenRepresentable_of_lenFits s.lenFits_zero
  · simp [State.busy, hstatus, hr]

/-- Settles O44. -/
theorem resetMeetsInvariant : Obligations.ResetMeetsInvariant :=
  stateInv_of_cleared rfl rfl rfl rfl rfl rfl

/-! ### Every step keeps the invariant -/

/-- A write of `IN_LEN` or of bytes of `IN` on an idle core keeps the invariant, where it keeps the
clauses on the input. -/
theorem StateInv.withInput {s : State} (h : StateInv s) (hb : s.busy = false) {m : Memory} {n : Nat}
    (hin : InputInv { s with inBuf := m, inLen := n }) :
    StateInv { s with inBuf := m, inLen := n } := by
  have hr := h.running_eq_none hb
  have ho := h.outcome
  exact .of_parts hin
    ⟨ho.canonical, ho.listed, ho.fits, ho.statusLegal, ho.busyRunning, ho.emptyUnlessOk⟩
    (by simp [hr])

/-- Every effect of a host access keeps the invariant. -/
theorem HostEffect.keepsInvariant {a : HostAccess} {s t : State} (he : HostEffect a s t)
    (h : StateInv s) : StateInv t := by
  have hin := h.input
  cases he with
  | ignored => exact h
  | command i idle fits => exact stateInv_commandEnd i hin (h.running_eq_none idle) fits
  | reserved idle =>
    have hr := h.running_eq_none idle
    exact .of_parts ⟨hin.canonical, hin.existing, hin.representable⟩ (outcomeInv_raiseError _ hr)
      (by simp [State.badCommand, hr])
  | started c r start idle fits =>
    exact .of_parts ⟨hin.canonical, hin.existing, hin.representable⟩
      (.of_empty rfl rfl (.inr (.inl rfl)) s.begin_busy) (fun _ => fits)
  | inLen v idle rep => exact h.withInput idle ⟨hin.canonical, hin.existing, rep⟩
  | filter src dst dport => exact h.withHostSide src dst dport rfl _ _ _
  | read v d => exact h.withHostSide _ _ _ rfl _ _ _
  | inByte x b idle ex =>
    refine h.withInput idle ⟨Memory.wf_write hin.canonical x b, fun c hc => ?_, hin.representable⟩
    rcases Memory.mem_write hc with rfl | hc
    · exact ex
    · exact hin.existing c hc
  | reset => exact stateInv_of_cleared rfl rfl rfl rfl rfl rfl
  | move idle fits =>
    refine h.withInput idle ⟨Memory.wf_writeBytes hin.canonical 0 _, fun c hc => ?_,
      State.lenRepresentable_of_lenFits (s := s) fits⟩
    rcases Memory.mem_writeBytes hc with ⟨-, hlt⟩ | hc
    · rw [outBytes_length, Nat.zero_add] at hlt
      exact State.addrExists_of_lt (s := s) hlt fits
    · exact hin.existing c hc

/-- Settles O45, by the four things a step can do: wait, serve an access on the idle core or inside a
command's run, or complete the command in progress. -/
theorem stepKeepsInvariant : Obligations.StepKeepsInvariant := by
  intro s t h hstep
  rcases step_next hstep with ⟨-, -, rfl⟩ | ⟨a, rest, -, -, hserve⟩ |
    ⟨r, left, a, rest, hr, -, -, hserve⟩ | ⟨r, hr, -, hexec⟩
  · exact h
  · exact (hostServe_next hserve).keepsInvariant (h.withHostSide _ _ _ rfl rest _ _)
  · exact (hostServe_next hserve).keepsInvariant (h.withHostSide _ _ _ (by simp [hr]) rest _ _)
  · obtain ⟨hfits, rfl⟩ := exec_next hexec
    exact stateInv_commandEnd r.instr
      ⟨h.inCanonical, h.inExists, h.inLenRepresentable⟩ rfl hfits

/-! ### Statements about every command -/

/-- Settles O10: a command's end is the state before it with another outcome. -/
theorem commandFrame : Obligations.CommandFrame := by
  intro i s t h
  obtain ⟨-, rfl⟩ := exec_next h
  refine ⟨sameBesideOutcome_iff.2 (commandEnd_frame i s), fun a => ?_, commandEnd_status i s,
    commandEnd_listed i s⟩
  rw [State.inByte, State.inByte, commandEnd_inBuf, commandEnd_inEpoch]

/-- Settles O11. -/
theorem outputNeverLongerThanInput : Obligations.OutputNeverLongerThanInput := by
  intro i s t h
  obtain ⟨hfits, rfl⟩ := exec_next h
  exact ⟨commandEnd_outLen_le i s, lenFits_commandEnd_outLen i hfits⟩

/-- Settles O9. -/
theorem commandAnswersWithinCapacity : Obligations.CommandAnswersWithinCapacity := fun i s =>
  ⟨fun hfits => ⟨commandEnd i s, exec_of_fits i hfits, commandEnd_busy i s, commandEnd_done i s⟩,
    exec_of_not_fits i⟩

/-- One byte decodes to the command its code names. -/
theorem decode_singleton_iff {c : Byte} {i : Instr} :
    decode [c] = .ok (i, []) ↔ decodeByte c = .ok i := by
  cases h : decodeByte c <;> simp [decode, h]

/-- Settles O5: the step is the write of the code, and the write is the command. -/
theorem stepRunsWrittenCommand : Obligations.StepRunsWrittenCommand := by
  intro s c i rest ⟨hr, hb⟩ hp hdecode _
  rw [step_writeCmd hr hb hp]
  exact writeCmd_ok hb (decode_singleton_iff.1 hdecode)

/-! ### Registers and bytes of an idle core -/

section IdleAccesses

variable {s : State} (hb : s.busy = false)
include hb

theorem writeField_representable {r : Reg} {v : Nat} (put : State → State)
    (hv : s.regRepresentable r v = true) : writeField r v put s = .next (put s) := by
  rw [writeField, if_neg (by simp [hb]), if_pos hv]

theorem writeField_refused {r : Reg} {v : Nat} (put : State → State)
    (hv : s.regRepresentable r v = false) :
    writeField r v put s = .refused (.notRepresentable r v) := by
  rw [writeField, if_neg (by simp [hb]), if_neg (by simp [hv])]

theorem hostServe_writeInLen {v : Nat} (hv : s.lenRepresentable v = true) :
    hostServe (.writeReg .inLen v) s = .next { s with inLen := v } := by
  rw [hostServe, hostWriteReg, writeField_representable (r := .inLen) hb _ hv]

theorem hostServe_writeFltSrc (v : Word) :
    hostServe (.writeReg .fltSrc v.toNat) s = .next { s with fltSrc := v } := by
  rw [hostServe, hostWriteReg,
    writeField_representable (r := .fltSrc) hb _ (decide_eq_true v.isLt)]
  simp

theorem hostServe_writeFltDst (v : Word) :
    hostServe (.writeReg .fltDst v.toNat) s = .next { s with fltDst := v } := by
  rw [hostServe, hostWriteReg,
    writeField_representable (r := .fltDst) hb _ (decide_eq_true v.isLt)]
  simp

theorem hostServe_writeFltDport (v : Half) :
    hostServe (.writeReg .fltDport v.toNat) s = .next { s with fltDport := v } := by
  rw [hostServe, hostWriteReg,
    writeField_representable (r := .fltDport) hb _ (decide_eq_true v.isLt)]
  simp

/-- A value too wide for a register that takes writes is refused (R16, log 4). -/
theorem hostWriteReg_refused {r : Reg} {v : Nat} (hstatus : r ≠ .status) (hout : r ≠ .outLen)
    (hv : s.regRepresentable r v = false) :
    hostWriteReg r v s = .refused (.notRepresentable r v) := by
  cases r with
  | cmd => rw [hostWriteReg, if_neg (by simp [hb]), if_neg (by simp [hv])]
  | status => exact absurd rfl hstatus
  | outLen => exact absurd rfl hout
  | inLen | fltSrc | fltDst | fltDport =>
    rw [hostWriteReg]
    exact writeField_refused hb _ hv

theorem hostWriteIn_idle {a : Nat} (ha : s.addrExists a = true) (b : Byte) :
    hostWriteIn a b s = .next { s with inBuf := s.inBuf.write a b } := by
  rw [hostWriteIn, if_pos ha, if_neg (by simp [hb])]

theorem hostReadOut_below {a : Nat} (ha : s.addrExists a = true) (hlt : a < s.outLen) :
    hostReadOut a s = .next (s.hostGets (s.outByte a).toNat) := by
  rw [hostReadOut, if_pos ha, if_neg (by simp [hb]), if_pos hlt]

theorem hostReadOut_past {a : Nat} (ha : s.addrExists a = true) (hge : s.outLen ≤ a) :
    hostReadOut a s = .refused (.outPastLength a) := by
  rw [hostReadOut, if_pos ha, if_neg (by simp [hb]), if_neg (by omega)]

theorem hostMove_idle (hf : s.lenFits s.outLen = true) :
    hostMove s = .next { s with inBuf := s.inBuf.writeBytes 0 s.outBytes, inLen := s.outLen } := by
  rw [hostMove, if_neg (by simp [hb]), if_pos hf]

theorem startCmd_ok {c : Byte} {i : Instr} (k : Nat) (hd : decodeByte c = .ok i)
    (hf : s.lenFits s.inLen = true) :
    startCmd c k s = .next { s.begin with running := some { instr := i, left := k } } := by
  rw [startCmd, if_neg (by simp [hb]), hd]
  exact if_pos hf

theorem startCmd_reserved {c : Byte} {e : DecodeError} (k : Nat) (hd : decodeByte c = .error e) :
    startCmd c k s = .next s.badCommand := by
  rw [startCmd, if_neg (by simp [hb]), hd]

end IdleAccesses

theorem hostWriteIn_missing {s : State} {a : Nat} (ha : s.addrExists a = false) (b : Byte) :
    hostWriteIn a b s = .fault (.inAddress a) := by
  rw [hostWriteIn, if_neg (by simp [ha])]

theorem hostReadOut_missing {s : State} {a : Nat} (ha : s.addrExists a = false) :
    hostReadOut a s = .fault (.outAddress a) := by
  rw [hostReadOut, if_neg (by simp [ha])]

theorem hostReadIn_existing {s : State} {a : Nat} (ha : s.addrExists a = true) :
    hostReadIn a s = .next (s.hostGets (s.inByte a).toNat) := by
  rw [hostReadIn, if_pos ha]

theorem hostReadOut_busy {s : State} {a : Nat} (hb : s.busy = true) (ha : s.addrExists a = true) :
    hostReadOut a s = .next (s.hostGets (Config.unspecifiedOut s.draws a).toNat).drawn := by
  rw [hostReadOut, if_pos ha, if_pos hb]

/-- Settles O32: a register that takes writes is one `writeField`, with a value that fits or one
that does not. -/
theorem hostRegisterWrites : Obligations.HostRegisterWrites := by
  intro s hb
  exact ⟨fun _ => rfl, fun _ => rfl, fun v => hostServe_writeInLen hb, hostServe_writeFltSrc hb,
    hostServe_writeFltDst hb, hostServe_writeFltDport hb,
    fun r v hstatus hout hv => hostWriteReg_refused hb hstatus hout hv⟩

/-- Settles O33: only the read of `OUT_LEN` asks whether the core is busy. -/
theorem hostRegisterReads : Obligations.HostRegisterReads := by
  intro s hb
  have hout : hostReadReg .outLen s = s.hostGets s.outLen := by
    rw [hostReadReg, if_neg (by simp [hb])]
  exact ⟨rfl, rfl, rfl, congrArg _ hout, rfl, rfl, rfl⟩

/-- The byte a host write put at an address of `IN` is the one there (R12). -/
theorem inByte_write_same (s : State) (a : Nat) (b : Byte) :
    ({ s with inBuf := s.inBuf.write a b } : State).inByte a = b := by
  simp [State.inByte, Memory.read_write_same]

theorem inByte_write_other (s : State) {a a' : Nat} (b : Byte) (h : a' ≠ a) :
    ({ s with inBuf := s.inBuf.write a b } : State).inByte a' = s.inByte a' := by
  simp [State.inByte, Memory.read_write_other _ b h]

/-- Settles O35: the read after the write is a read of the byte written. -/
theorem hostWriteOfInputByte : Obligations.HostWriteOfInputByte := by
  intro s a b hb
  refine ⟨fun ha => ?_, fun ha => hostWriteIn_missing ha b⟩
  have hread := hostReadIn_existing (s := { s with inBuf := s.inBuf.write a b }) ha
  rw [inByte_write_same] at hread
  exact ⟨_, hostWriteIn_idle hb ha b, inByte_write_same s a b,
    fun _ hne => inByte_write_other s b hne, rfl, hread⟩

/-- Settles O36: the three answers of `hostReadOut` to an idle core's host. -/
theorem hostReadOfOutputByte : Obligations.HostReadOfOutputByte := fun s _ hb =>
  ⟨fun ha hlt => ⟨s.outByte _, outBytes_getElem? hlt, hostReadOut_below hb ha hlt⟩,
    hostReadOut_past hb, hostReadOut_missing⟩

/-! ### What a step comes to -/

theorem step_serve_idle {s : State} {a : HostAccess} {rest : List HostAccess}
    (hr : s.running = none) (hp : s.pending = a :: rest) :
    step s = hostServe a { s with pending := rest } :=
  (step_of_idle hr).trans (stepIdle_cons hp)

/-- A command in progress with accesses left in its run serves the next one. -/
theorem step_serve_running {s : State} {i : Instr} {n : Nat} {a : HostAccess}
    {rest : List HostAccess} (hr : s.running = some { instr := i, left := n + 1 })
    (hp : s.pending = a :: rest) :
    step s = hostServe a { s with pending := rest, running := some { instr := i, left := n } } := by
  rw [step_of_running hr, stepRunning, hp]

/-- A command in progress with no access left in its run, or none to serve, completes. -/
theorem step_complete {s : State} {r : Running} (hr : s.running = some r)
    (hend : r.left = 0 ∨ s.pending = []) (hf : s.lenFits s.inLen = true) :
    step s = .next (commandEnd r.instr { s with running := none }) := by
  have hcomplete := exec_of_fits r.instr (s := { s with running := none }) hf
  rw [step_of_running hr, stepRunning]
  split
  · next hl hp => simp [hl, hp] at hend
  · exact hcomplete

/-! ### A command that takes time -/

/-- An idle core with the start of a command that takes time next puts that command in progress
(R47, R100). -/
theorem step_startCmd {s : State} {c : Byte} {i : Instr} {k : Nat} {rest : List HostAccess}
    (hidle : Idle s) (hf : s.lenFits s.inLen = true) (hd : decodeByte c = .ok i)
    (hp : s.pending = .startCmd c k :: rest) :
    step s = .next { s.begin with pending := rest, running := some { instr := i, left := k } } := by
  obtain ⟨hr, hb⟩ := hidle
  rw [step_serve_idle hr hp]
  exact startCmd_ok (s := { s with pending := rest }) hb k hd hf

/-- Settles O39. -/
theorem startedCommandIsBusy : Obligations.StartedCommandIsBusy := by
  intro s c i k rest hidle hf hd hp
  exact ⟨_, step_startCmd hidle hf hd hp, rfl, s.begin_busy, s.begin_done, rfl, rfl, rfl, rfl, rfl,
    rfl⟩

/-- While `BUSY = 1` no access short of a reset changes more than the host's record of its reads and
the count of free values (R47, R245, R246). -/
theorem hostServe_busy {s : State} {a : HostAccess} (hb : s.busy = true)
    (ha : ServedWithoutReset s a) :
    ∃ l d, hostServe a s = .next { s with hostReads := l, draws := d } := by
  cases a with
  | writeReg r v => exact ⟨_, _, busy_writeReg hb r v⟩
  | startCmd c k => exact ⟨_, _, busy_startCmd hb c k⟩
  | readReg r =>
    obtain ⟨v, d, h⟩ := hostReadReg_effect r s
    exact ⟨_, d, congrArg _ h⟩
  | writeIn x b => exact ⟨_, _, busy_writeIn hb ha b⟩
  | readIn x => exact ⟨_, _, hostReadIn_existing ha⟩
  | readOut x => exact ⟨_, _, hostReadOut_busy hb ha⟩
  | reset => exact ha.elim
  | move => exact ⟨_, _, busy_move hb⟩

/-- The run of a command in progress, by the accesses that fall inside it: it ends as the command
does, with only the host's record of its reads and the count of free values changed before. -/
theorem run_running {during rest : List HostAccess} {i : Instr} {s : State} (hb : s.busy = true)
    (hf : s.lenFits s.inLen = true) (hserved : ∀ a ∈ during, ServedWithoutReset s a)
    (hr : s.running = some { instr := i, left := during.length })
    (hp : s.pending = during ++ rest) :
    ∃ l d, Sys2Proof.core.run (during.length + 1) s =
      .next (commandEnd i { s with running := none, pending := rest, hostReads := l, draws := d }) := by
  induction during generalizing s with
  | nil =>
    rw [List.nil_append] at hp
    subst hp
    exact ⟨s.hostReads, s.draws, run_succ (step_complete hr (.inl rfl) hf)⟩
  | cons a during ih =>
    have hstep := step_serve_running hr hp
    obtain ⟨l, d, hserve⟩ := hostServe_busy
      (s := { s with pending := during ++ rest,
                     running := some { instr := i, left := during.length } })
      hb (hserved a (by simp))
    rw [List.length_cons, run_succ (hstep.trans hserve)]
    exact ih hb hf (fun x hx => hserved x (List.mem_cons_of_mem a hx)) rfl rfl

/-- Settles O40: the run is the start, then the run of the command in progress, which ends as the
command does on the same input bytes and filter triple. -/
theorem startedCommandMatchesAtomic : Obligations.StartedCommandMatchesAtomic := by
  intro s c i during rest hidle hf hd hserved hp
  obtain ⟨l, d, hrun⟩ := run_running (rest := rest) (i := i)
    (s := { s.begin with pending := during ++ rest,
                         running := some { instr := i, left := during.length } })
    s.begin_busy hf hserved rfl rfl
  obtain ⟨hstatus, houtLen, houtBuf⟩ := commandEnd_congr (i := i) (u := { s with pending := rest })
    (s := { s.begin with running := none, pending := rest, hostReads := l, draws := d }) rfl
  refine ⟨_, _, (run_succ (step_startCmd hidle hf hd hp)).trans hrun, exec_of_fits i hf,
    hstatus, houtLen, houtBuf, by simp, by simp, ?_, by simp, by simp⟩
  rw [commandEnd_filterTriple, commandEnd_filterTriple]
  rfl

/-! ### `LOAD IN` -/

/-- The writes of a script line `LOAD IN`, for bytes from address `k` up: as many steps as bytes,
which write those bytes. -/
theorem run_writeIn {bs : List Byte} {k : Nat} {s : State} {rest : List HostAccess} (hidle : Idle s)
    (hf : s.lenFits (k + bs.length) = true)
    (hp : s.pending = (bs.zipIdx k).map (fun p => .writeIn p.2 p.1) ++ rest) :
    Sys2Proof.core.run bs.length s =
      .next { s with inBuf := s.inBuf.writeBytes k bs, pending := rest } := by
  induction bs generalizing s k with
  | nil =>
    rw [List.zipIdx_nil, List.map_nil, List.nil_append] at hp
    subst hp
    rfl
  | cons b bs ih =>
    obtain ⟨hr, hb⟩ := hidle
    rw [List.length_cons] at hf
    have hx := State.addrExists_of_lt (a := k) (by omega) hf
    have hwrite := hostWriteIn_idle
      (s := { s with pending := (bs.zipIdx (k + 1)).map (fun p => .writeIn p.2 p.1) ++ rest }) hb hx b
    rw [List.length_cons, run_succ ((step_serve_idle hr hp).trans hwrite)]
    exact ih ⟨hr, hb⟩ (by rw [Nat.add_right_comm]; exact hf) rfl

/-- A byte of `IN` after bytes were written from address 0 up. -/
theorem inByte_writeBytes_zero (s : State) (bs : List Byte) (a : Nat) :
    ({ s with inBuf := s.inBuf.writeBytes 0 bs } : State).inByte a = bs[a]?.getD (s.inByte a) := by
  simp only [State.inByte, Memory.read_writeBytes]
  by_cases ha : a < bs.length
  · simp [ha]
  · simp [ha]

/-- Bytes written from address 0 up are the input of that length. -/
theorem inBytes_writeBytes_zero (s : State) (bs : List Byte) :
    ({ s with inBuf := s.inBuf.writeBytes 0 bs, inLen := bs.length } : State).inBytes = bs := by
  apply List.ext_getElem (by simp)
  intro a h1 h2
  simp only [State.inBytes, State.memReadIn, List.getElem_map, List.getElem_range, Nat.zero_add]
  exact (inByte_writeBytes_zero s bs a).trans (by simp [h2])

/-- Settles O43: the writes of the bytes, then the write of `IN_LEN`. -/
theorem loadMakesBytesTheInput : Obligations.LoadMakesBytesTheInput := by
  intro s bs rest hidle hf hp
  obtain ⟨hr, hb⟩ := hidle
  rw [scriptLoad, List.append_assoc] at hp
  have hwrites := run_writeIn (k := 0) ⟨hr, hb⟩ (by rw [Nat.zero_add]; exact hf) hp
  have hlast := hostServe_writeInLen
    (s := { s with inBuf := s.inBuf.writeBytes 0 bs, pending := rest }) hb
    (State.lenRepresentable_of_lenFits (s := s) hf)
  have hstep := step_serve_idle
    (s := { s with inBuf := s.inBuf.writeBytes 0 bs,
                   pending := .writeReg .inLen bs.length :: rest }) hr rfl
  refine ⟨_, run_snoc hwrites (hstep.trans hlast), inBytes_writeBytes_zero s bs, rfl,
    fun a ha => ?_, rfl⟩
  exact (inByte_writeBytes_zero s bs a).trans (by simp [ha])

/-! ### The host that keeps the rules, and the core that stays idle -/

/-- A write of a register that takes writes is never refused a value the register represents. -/
theorem writeField_answers {s : State} {r : Reg} {v : Nat} (put : State → State)
    (hv : s.regRepresentable r v = true) : ∃ t, writeField r v put s = .next t := by
  cases hb : s.busy with
  | true => exact ⟨s, by rw [writeField, if_pos hb]⟩
  | false => exact ⟨put s, writeField_representable hb put hv⟩

/-- A start is answered where `IN_LEN` is at most `N_MAX`, whatever the code (R16, R77). -/
theorem startCmd_answers (c : Byte) (k : Nat) {s : State} (hf : s.lenFits s.inLen = true) :
    ∃ t, startCmd c k s = .next t := by
  cases hb : s.busy with
  | true => exact ⟨s, busy_startCmd hb c k⟩
  | false =>
    cases hd : decodeByte c with
    | ok i => exact ⟨_, startCmd_ok hb k hd hf⟩
    | error e => exact ⟨_, startCmd_reserved hb k hd⟩

theorem writeCmd_answers (c : Byte) {s : State} (hb : s.busy = false)
    (hf : s.lenFits s.inLen = true) : ∃ t, writeCmd c s = .next t := by
  cases hd : decodeByte c with
  | ok i => exact ⟨_, (writeCmd_ok hb hd).trans (exec_of_fits i hf)⟩
  | error e => exact ⟨_, writeCmd_reserved hb hd⟩

/-- A write of a register that R14, R16 and R245 allow the host is answered. -/
theorem hostWriteReg_answers {s : State} {r : Reg} {v : Nat}
    (hl : hostLegal s (.writeReg r v) = true) : ∃ t, hostWriteReg r v s = .next t := by
  cases r with
  | cmd =>
    simp only [hostLegal, Bool.and_eq_true, Bool.not_eq_true'] at hl
    obtain ⟨⟨hb, hv⟩, hf⟩ := hl
    rw [hostWriteReg, if_neg (by simp [hb]), if_pos hv]
    exact writeCmd_answers _ hb hf
  | status => exact ⟨s, rfl⟩
  | outLen => exact ⟨s, rfl⟩
  | inLen =>
    rw [hostWriteReg]
    exact writeField_answers _ (State.lenRepresentable_of_lenFits (Bool.and_eq_true_iff.1 hl).2)
  | fltSrc | fltDst | fltDport =>
    rw [hostWriteReg]
    exact writeField_answers _ (Bool.and_eq_true_iff.1 hl).2

/-- Under the invariant every legal access is answered. -/
theorem hostServe_answers {s : State} {a : HostAccess} (h : StateInv s)
    (hl : hostLegal s a = true) : ∃ t, hostServe a s = .next t := by
  cases a with
  | writeReg r v => exact hostWriteReg_answers hl
  | startCmd c k => exact startCmd_answers c k (Bool.and_eq_true_iff.1 hl).2
  | readReg r => exact ⟨_, rfl⟩
  | writeIn x b =>
    simp only [hostLegal, Bool.and_eq_true, Bool.not_eq_true'] at hl
    exact ⟨_, hostWriteIn_idle hl.1 hl.2 b⟩
  | readIn x => exact ⟨_, hostReadIn_existing hl⟩
  | readOut x =>
    simp only [hostLegal, Bool.and_eq_true, Bool.not_eq_true', decide_eq_true_eq] at hl
    obtain ⟨⟨hb, hx⟩, hlt⟩ := hl
    exact ⟨_, hostReadOut_below hb hx hlt⟩
  | reset => exact ⟨_, rfl⟩
  | move => exact ⟨_, hostMove_idle (by simpa [hostLegal] using hl) h.outFits⟩

/-- Settles O46: waiting and completing a command always answer; an access is served in a state that
differs only in the queue and the count of accesses left, so the invariant and legality hold there. -/
theorem legalHostNeverStopsTheMachine : Obligations.LegalHostNeverStopsTheMachine := by
  intro s h hlegal
  cases hr : s.running with
  | none =>
    cases hp : s.pending with
    | nil => exact ⟨s, by rw [step_of_idle hr, stepIdle, hp]⟩
    | cons a rest =>
      rw [step_serve_idle hr hp]
      exact hostServe_answers (h.withHostSide _ _ _ rfl rest _ _) (hlegal a (by simp [hp]))
  | some r =>
    obtain ⟨i, left⟩ := r
    have hf := h.runningFits (by rw [hr]; rfl)
    cases left with
    | zero => exact ⟨_, step_complete hr (.inl rfl) hf⟩
    | succ n =>
      cases hp : s.pending with
      | nil => exact ⟨_, step_complete hr (.inr hp) hf⟩
      | cons a rest =>
        rw [step_serve_running hr hp]
        exact hostServe_answers (h.withHostSide _ _ _ (by rw [hr]; rfl) rest _ _)
          (hlegal a (by simp [hp]))

/-- Every effect of an access on an idle core but the start of a command that takes time leaves the
core idle. -/
theorem HostEffect.idle {a : HostAccess} {s t : State} (he : HostEffect a s t) (hs : Idle s)
    (hstart : ∀ c k, a ≠ .startCmd c k) : Idle t := by
  obtain ⟨hr, hb⟩ := hs
  cases he with
  | command i => exact ⟨(commandEnd_running i s).trans hr, commandEnd_busy i s⟩
  | reserved => exact ⟨hr, State.raiseError_busy _ _⟩
  | started c r start => exact absurd start (hstart c r.left)
  | reset => exact ⟨rfl, by simp [State.busy]⟩
  | ignored | inLen | filter | read | inByte | move => exact ⟨hr, hb⟩

/-- Settles O47: the step waits or serves an access, for nothing is in progress to complete. -/
theorem atomicCommandsNeverShowBusy : Obligations.AtomicCommandsNeverShowBusy := by
  intro s t hidle hstart hstep
  obtain ⟨hr, hb⟩ := hidle
  rcases step_next hstep with ⟨-, -, rfl⟩ | ⟨a, rest, -, hp, hserve⟩ | ⟨r, _, _, _, hr', -⟩ |
    ⟨r, hr', -⟩
  · exact ⟨hr, hb⟩
  · refine (hostServe_next hserve).idle ⟨hr, hb⟩ fun c k ha => hstart c k ?_
    rw [hp, ha, List.head?_cons]
  · exact absurd (hr.symm.trans hr') (by simp)
  · exact absurd (hr.symm.trans hr') (by simp)

end Sys2Proof.Machine

/-! Memory (spec/20_memory.md): the order of the bits `PARPACK` packs into its output, and what the
host's accesses to registers and buffers leave as it was. -/

namespace Sys2Proof.Machine

open Sys2Proof.Certificates

/-! ### The bits of the accumulator -/

/-- The low `n` bits of a word, most significant first (R43). -/
def lowBits {w : Nat} (n : Nat) (a : BitVec w) : List Bool :=
  ((List.range n).map fun k => a.getLsbD k).reverse

/-- One step of the accumulator, `A <- (A << 7) | p`, appends the payload bits to those it holds, as
long as there is room for them (R155). -/
theorem lowBits_packStep {n : Nat} (hn : n + 7 ≤ 56) (a : BitVec 56) (b : Byte) :
    lowBits (7 + n) ((a <<< 7) ||| (payload7 b).setWidth 56) = lowBits n a ++ payloadBits b := by
  have hhigh : (List.range n).map
      (fun k => ((a <<< 7) ||| (payload7 b).setWidth 56).getLsbD (7 + k)) =
        (List.range n).map fun k => a.getLsbD k := by
    refine List.map_congr_left fun k hk => ?_
    have hlt := List.mem_range.1 hk
    have hroom : 7 + k < 56 := by omega
    simp [hroom, BitVec.getLsbD_eq_getElem (x := a) (show k < 56 by omega)]
  have hlow : ((List.range 7).map
      fun k => ((a <<< 7) ||| (payload7 b).setWidth 56).getLsbD k).reverse = payloadBits b := by
    simp [List.range_succ, payload7, payloadBits]
  rw [lowBits, List.range_add, List.map_append, List.reverse_append, List.map_map, hlow]
  exact congrArg (fun l => l.reverse ++ payloadBits b) hhigh

/-- The accumulator of a group holds the payload bits of its bytes in order (R155, R156). -/
theorem lowBits_packValue {k : List Byte} (hk : 7 * k.length ≤ 56) :
    lowBits (7 * k.length) (packValue k) = k.flatMap payloadBits := by
  rw [packValue]
  induction k using List.reverseRecOn with
  | nil => rfl
  | append_singleton k b ih =>
    rw [List.length_append, List.length_singleton] at hk ⊢
    rw [List.foldl_append, List.flatMap_append, ← ih (by omega), Nat.mul_succ, Nat.add_comm]
    simpa using lowBits_packStep (n := 7 * k.length) (by omega) _ b

/-- The seven bytes of the accumulator hold its 56 bits in order (R71, R155). -/
theorem packBytes_bits (a : BitVec 56) : (packBytes a).flatMap byteBits = lowBits 56 a := by
  have hbyte (i : Nat) : byteBits (a.extractLsb' i 8) =
      [7, 6, 5, 4, 3, 2, 1, 0].map fun k => a.getLsbD (i + k) := by
    simp [byteBits]
  simp only [packBytes, List.flatMap_cons, List.flatMap_nil, hbyte]
  rfl

/-- The groups of eight keep the payload bits of their bytes, and leave out none where the count of
bytes is a multiple of eight (R157). -/
theorem packGroups_bits {K : List Byte} (hK : K.length % 8 = 0) :
    (packGroups K).flatMap byteBits = K.flatMap payloadBits := by
  induction K using packGroups.induct with
  | case1 k0 k1 k2 k3 k4 k5 k6 k7 rest ih =>
    have hgroup := lowBits_packValue (k := [k0, k1, k2, k3, k4, k5, k6, k7]) (Nat.le_refl 56)
    simp only [List.length_cons] at hK
    rw [packGroups, List.flatMap_append, packBytes_bits, ih (by omega)]
    exact (congrArg (· ++ _) hgroup).trans List.flatMap_append.symm
  | case2 K hshort =>
    have hout : packGroups K = [] := by
      rw [packGroups]
      exact hshort
    have hlen := packGroups_length K
    rw [hout, List.length_nil] at hlen
    obtain rfl : K = [] := List.length_eq_zero_iff.1 (by omega)
    rw [hout]
    rfl

/-! ### The outcome of `PARPACK` on whole groups -/

/-- The model's parity test is that of R151. -/
theorem correctParity_eq_flagMatches (b : Byte) : correctParity b = flagMatches b := by
  simp [correctParity, flagMatches, payloadParity, payloadBits]

theorem retained_eq_keptBytes (B : List Byte) : retained B = keptBytes B :=
  List.filter_congr fun b _ => correctParity_eq_flagMatches b

/-- Whole groups of retained bytes are packed (R153, R157). -/
theorem parityCombine_of_whole_groups {B : List Byte} (h : (keptBytes B).length % 8 = 0) :
    parityCombine B = .ok (packGroups (keptBytes B)) := by
  rw [parityCombine, retained_eq_keptBytes, if_neg (by simp [h])]

/-- A command whose function answers an output ends with success and that output (R101). -/
theorem endsOk_commandEnd {i : Instr} {s : State} {out : List Byte}
    (h : commandFunction i s.filterTriple s.inBytes = .ok out) : EndsOk s (commandEnd i s) out := by
  refine ⟨?_, ?_, ?_, sameBesideOutcome_iff.2 (commandEnd_frame i s)⟩ <;> simp [commandEnd_ok h]

/-- Settles O21: the command ends with the packed groups of the retained bytes as its output, and
packing keeps the payload bits in order. -/
theorem parpackKeepsPayloadBits : Obligations.ParpackKeepsPayloadBits := by
  intro s hfits hwhole
  exact ⟨_, _, exec_of_fits .parpack hfits,
    endsOk_commandEnd (i := .parpack) (parityCombine_of_whole_groups hwhole),
    packGroups_bits hwhole⟩

/-! ### The host's reads -/

/-- Settles O34: each of the three kinds of read adds a value to the record and may count a draw. -/
theorem readsHaveNoSideEffect : Obligations.ReadsHaveNoSideEffect := by
  intro s t r hread h
  have heffect : ∃ v d, t = { s with hostReads := v :: s.hostReads, draws := d } := by
    rcases hread with ⟨x, rfl⟩ | ⟨a, rfl⟩ | ⟨a, rfl⟩
    · obtain ⟨v, d, hx⟩ := hostReadReg_effect x s
      exact ⟨v, d, (Host.Outcome.next.inj h).symm.trans hx⟩
    · exact hostReadIn_next h
    · exact hostReadOut_next h
  obtain ⟨v, d, rfl⟩ := heffect
  exact ⟨⟨v, rfl⟩, rfl⟩

/-! ### Accesses while `BUSY = 1` -/

/-- Settles O37. -/
theorem busyIgnoresWrites : Obligations.BusyIgnoresWrites := fun _ hb =>
  ⟨busy_writeReg hb, busy_startCmd hb, fun _ b hx => busy_writeIn hb hx b⟩

theorem hostReadReg_outLen_busy {s : State} (hb : s.busy = true) :
    hostReadReg .outLen s = (s.hostGets (s.cutToLength (Config.busyOutLen s.draws))).drawn := by
  rw [hostReadReg, if_pos hb]

/-- Settles O38: the free length is cut to the register's width, and a free byte is a byte. -/
theorem busyReadsAnswer : Obligations.BusyReadsAnswer := fun s hb =>
  ⟨⟨_, s.lenRepresentable_cutToLength _, congrArg _ (hostReadReg_outLen_busy hb)⟩,
    fun _ ha => ⟨_, hostReadOut_busy hb ha⟩⟩

/-- Settles O49. -/
theorem busyIgnoresMove : Obligations.BusyIgnoresMove := fun _ => busy_move

end Sys2Proof.Machine

/-! The encoding (spec/30_encoding.md): the radix-85 encoding and its inverse, the command codes, the
status bytes, the parity bytes, and the script line `MOVE`. -/

namespace Sys2Proof.Machine

open Sys2Proof.Certificates

/-! ### The envelope -/

/-- The search finds a pair put after bytes that do not hold it; `x ≠ y` keeps the pair from
straddling the seam. -/
theorem findPair_append {x y : Byte} (hxy : x ≠ y) {A : List Byte} (hA : ∀ j, ¬ PairAt A x y j)
    (rest : List Byte) : findPair x y (A ++ x :: y :: rest) = some A.length := by
  refine findPair_of_least (by simp) fun j hj ⟨hx, hy⟩ => ?_
  rw [List.getElem?_append_left hj] at hx
  by_cases hnext : j + 1 < A.length
  · rw [List.getElem?_append_left hnext] at hy
    exact hA j ⟨hx, hy⟩
  · have hseam : j + 1 = A.length := by omega
    rw [hseam] at hy
    exact hxy (by simpa using hy)

/-- `A85DEC` decodes what stands between the first `<~` and the first `~>` after it (R121, R122,
R123). -/
theorem a85Decode_envelope {before interior : List Byte} (after : List Byte)
    (hbefore : ∀ j, ¬ PairAt before 0x3C#8 0x7E#8 j)
    (hinterior : ∀ j, ¬ PairAt interior 0x7E#8 0x3E#8 j) :
    a85Decode (before ++ 0x3C#8 :: 0x7E#8 :: (interior ++ 0x7E#8 :: 0x3E#8 :: after)) =
      decodeInterior interior := by
  have hdrop : (before ++ 0x3C#8 :: 0x7E#8 :: (interior ++ 0x7E#8 :: 0x3E#8 :: after)).drop
      (before.length + 2) = interior ++ 0x7E#8 :: 0x3E#8 :: after := by
    simp [List.drop_append]
  have hstart := findPair_append (by decide) hbefore (interior ++ 0x7E#8 :: 0x3E#8 :: after)
  have hend := findPair_append (by decide) hinterior after
  simp [a85Decode, findStart, findEnd, slice, hstart, hdrop, hend]

/-! ### The symbols -/

theorem isSymbol_iff (b : Byte) : isSymbol b = true ↔ SymbolByte b := by
  simp [isSymbol, SymbolByte]

theorem isWhitespace_iff (b : Byte) : isWhitespace b = true ↔ BlankByte b := by
  simp [isWhitespace, BlankByte]

/-- Stripping takes out the whitespace and nothing else (R129). -/
theorem stripped_eq (I : List Byte) : stripped I = I.filter fun b => !isWhitespace b :=
  List.filter_congr fun b _ => by simp [isWhitespace, bne]

/-- An interior of symbols and whitespace passes both checks, and its stripped form is decoded (R126,
R128, R129). -/
theorem decodeInterior_of_clean {I : List Byte} (h : CleanInterior I) :
    decodeInterior I = decodeGroups (stripped I) := by
  have hascii : ¬ I.any (fun b => 128 ≤ b.toNat) = true := by
    simp only [List.any_eq_true, decide_eq_true_eq, not_exists, not_and]
    intro b hb
    rcases h b hb with ⟨_, _⟩ | _ | _ <;> omega
  have hsymbols : ¬ I.any (fun b => !(isSymbol b || isWhitespace b)) = true := by
    simp only [List.any_eq_true, not_exists, not_and]
    intro b hb
    rcases h b hb with hsymbol | hblank
    · simp [(isSymbol_iff b).2 hsymbol]
    · simp [(isWhitespace_iff b).2 hblank]
  rw [decodeInterior, if_neg hascii, if_neg hsymbols, stripped_eq]

/-- An interior whose stripped form holds only symbols is clean: stripping takes out whitespace
alone. -/
theorem cleanInterior_of_stripped {I : List Byte} (h : ∀ b ∈ stripped I, SymbolByte b) :
    CleanInterior I := by
  intro b hb
  by_cases hblank : BlankByte b
  · exact .inr hblank
  · refine .inl (h b (List.mem_filter.2 ⟨hb, ?_⟩))
    simpa [BlankByte] using hblank

/-- A clean interior holds no `~`, so no end delimiter. -/
theorem not_pairAt_end_of_clean {I : List Byte} (h : CleanInterior I) (j : Nat) :
    ¬ PairAt I 0x7E#8 0x3E#8 j := by
  rintro ⟨htilde, -⟩
  have := h _ (List.mem_of_getElem? htilde)
  simp [SymbolByte, BlankByte] at this

/-- The symbol of a digit lies in the range of symbols (R64). -/
theorem toNat_digitSymbol {d : Nat} (h : d < 85) : (BitVec.ofNat 8 (d + 33)).toNat = d + 33 := by
  rw [BitVec.toNat_ofNat]
  omega

theorem symbolByte_of_mem_encodeGroup {b : List Byte} {c : Byte} (h : c ∈ encodeGroup b) :
    SymbolByte c := by
  obtain ⟨d, hd, rfl⟩ := List.mem_map.1 (List.mem_of_mem_take h)
  have hlt : d < 85 := by
    simp only [List.mem_cons, List.not_mem_nil, or_false] at hd
    omega
  rw [SymbolByte, toNat_digitSymbol hlt]
  omega

theorem symbolByte_of_mem_encodeRadix85 {bs : List Byte} {c : Byte} (h : c ∈ encodeRadix85 bs) :
    SymbolByte c := by
  induction bs using encodeRadix85.induct with
  | case1 b0 b1 b2 b3 rest ih =>
    rw [encodeRadix85] at h
    exact (List.mem_append.1 h).elim symbolByte_of_mem_encodeGroup ih
  | case2 => simp [encodeRadix85] at h
  | case3 b hlong hne =>
    rw [encodeRadix85.eq_3 b hlong hne] at h
    exact symbolByte_of_mem_encodeGroup h

/-! ### The value of an encoded group -/

/-- The value of up to four bytes, zero where there are fewer: what `encodeGroup` encodes. -/
def bytesValue (b : List Byte) : Nat :=
  (b.getD 0 0#8).toNat * 2 ^ 24 + (b.getD 1 0#8).toNat * 2 ^ 16 + (b.getD 2 0#8).toNat * 2 ^ 8 +
    (b.getD 3 0#8).toNat

/-- Symbol `i` of the five that a value is written in. -/
def valueSymbol (v i : Nat) : Byte := BitVec.ofNat 8 (v / 85 ^ (4 - i) % 85 + 33)

theorem symbolDigit_valueSymbol (v i : Nat) :
    symbolDigit (valueSymbol v i) = v / 85 ^ (4 - i) % 85 := by
  rw [symbolDigit, valueSymbol, toNat_digitSymbol (Nat.mod_lt _ (by decide)), Nat.add_sub_cancel]

theorem bytesValue_lt (b : List Byte) : bytesValue b < 2 ^ 32 := by
  have := (b.getD 0 0#8).isLt
  have := (b.getD 1 0#8).isLt
  have := (b.getD 2 0#8).isLt
  have := (b.getD 3 0#8).isLt
  rw [bytesValue]
  omega

/-- A group of bytes is encoded as the leading symbols of its value, one more than it has bytes. -/
theorem encodeGroup_eq {b : List Byte} (hb : b.length ≤ 4) :
    encodeGroup b = (List.range (b.length + 1)).map (valueSymbol (bytesValue b)) := by
  have hfive : encodeGroup b =
      ((List.range 5).map (valueSymbol (bytesValue b))).take (b.length + 1) := by
    simp [encodeGroup, bytesValue, valueSymbol, List.range_succ]
  rw [hfive, ← List.map_take, List.take_range, Nat.min_eq_left (by omega)]

theorem encodeGroup_length {b : List Byte} (hb : b.length ≤ 4) :
    (encodeGroup b).length = b.length + 1 := by
  rw [encodeGroup_eq hb, List.length_map, List.length_range]

theorem groupValue_append_singleton (g : List Byte) (c : Byte) :
    groupValue (g ++ [c]) = groupValue g * 85 + symbolDigit c := by
  rw [groupValue, List.foldl_append]
  rfl

/-- The leading symbols of a value are the value without its trailing digits. -/
theorem groupValue_valueSymbols {v k : Nat} (hv : v < 85 ^ 5) (hk : k ≤ 5) :
    groupValue ((List.range k).map (valueSymbol v)) = v / 85 ^ (5 - k) := by
  induction k with
  | zero => exact (Nat.div_eq_of_lt hv).symm
  | succ k ih =>
    have hexp : 5 - k = (4 - k) + 1 := by omega
    rw [List.range_succ, List.map_append, List.map_singleton, groupValue_append_singleton,
      ih (by omega), symbolDigit_valueSymbol, hexp, Nat.pow_succ, ← Nat.div_div_eq_div_mul,
      Nat.div_add_mod', show 5 - (k + 1) = 4 - k by omega]

/-- A group padded to five symbols (R67, R133). -/
def padGroup (g : List Byte) : List Byte := g ++ List.replicate (5 - g.length) padSymbol

theorem partialGroup_eq (g : List Byte) :
    partialGroup g = keepLeading (g.length - 1) (fullGroup (padGroup g)) := rfl

/-- Padding with the greatest symbol puts the greatest digits after a value (R67, R133). -/
theorem groupValue_pad (g : List Byte) (k : Nat) :
    groupValue (g ++ List.replicate k padSymbol) + 1 = (groupValue g + 1) * 85 ^ k := by
  induction k with
  | zero => simp
  | succ k ih =>
    have hpad : symbolDigit padSymbol = 84 := rfl
    rw [List.replicate_succ', ← List.append_assoc, groupValue_append_singleton, hpad, Nat.pow_succ,
      ← Nat.mul_assoc, ← ih]
    omega

/-- The padded value of an encoded group is at least the value of its bytes, and above it by less than
a unit of the last kept byte, for `85 < 256`. -/
theorem groupValue_padGroup_encodeGroup {b : List Byte} (hb : b.length ≤ 4) :
    bytesValue b ≤ groupValue (padGroup (encodeGroup b)) ∧
      groupValue (padGroup (encodeGroup b)) < bytesValue b + 256 ^ (4 - b.length) := by
  have hlead := groupValue_valueSymbols (k := b.length + 1)
    (Nat.lt_trans (bytesValue_lt b) (by decide)) (by omega)
  rw [← encodeGroup_eq hb, Nat.add_sub_add_right 4 1 b.length] at hlead
  have hpadded := groupValue_pad (encodeGroup b) (4 - b.length)
  rw [hlead, Nat.add_mul, Nat.one_mul] at hpadded
  rw [padGroup, encodeGroup_length hb, Nat.add_sub_add_right 4 1 b.length]
  have hdigits := Nat.div_add_mod' (bytesValue b) (85 ^ (4 - b.length))
  have hrest := Nat.mod_lt (bytesValue b) (Nat.pow_pos (n := 4 - b.length) (show 0 < 85 by decide))
  have hunit : 85 ^ (4 - b.length) ≤ 256 ^ (4 - b.length) := Nat.pow_le_pow_left (by decide) _
  constructor <;> omega

theorem extractByte_ofNat {V k : Nat} {c : Byte} (h : V % 2 ^ 32 / 2 ^ k % 2 ^ 8 = c.toNat) :
    (BitVec.ofNat 32 V).extractLsb' k 8 = c := by
  apply BitVec.eq_of_toNat_eq
  rw [BitVec.extractLsb'_toNat, BitVec.toNat_ofNat, Nat.shiftRight_eq_div_pow, h]

/-- A value that exceeds that of `b` by less than a unit of its last byte has the bytes of `b` as its
leading ones. -/
theorem wordBytes_take {b : List Byte} (hb : b.length ≤ 4) {V : Nat} (hlow : bytesValue b ≤ V)
    (hhigh : V < bytesValue b + 256 ^ (4 - b.length)) :
    V < 2 ^ 32 ∧ (wordBytes (BitVec.ofNat 32 V)).take b.length = b := by
  rcases b with _ | ⟨b0, _ | ⟨b1, _ | ⟨b2, _ | ⟨b3, _ | ⟨b4, b⟩⟩⟩⟩⟩
  case cons.cons.cons.cons.cons => exact absurd hb (by simp)
  all_goals
    simp only [bytesValue, List.getD_cons_zero, List.getD_cons_succ, List.getD_nil, List.length_cons,
      List.length_nil, BitVec.toNat_ofNat] at hlow hhigh
    refine ⟨by omega, ?_⟩
    simp only [wordBytes, List.length_cons, List.length_nil, List.take_succ_cons, List.take_zero,
      List.cons.injEq, and_true]
  case cons.nil => exact extractByte_ofNat (by omega)
  case cons.cons.nil => exact ⟨extractByte_ofNat (by omega), extractByte_ofNat (by omega)⟩
  case cons.cons.cons.nil =>
    exact ⟨extractByte_ofNat (by omega), extractByte_ofNat (by omega), extractByte_ofNat (by omega)⟩
  case cons.cons.cons.cons.nil =>
    exact ⟨extractByte_ofNat (by omega), extractByte_ofNat (by omega), extractByte_ofNat (by omega),
      extractByte_ofNat (by omega)⟩

/-! ### The round trip -/

theorem fullGroup_of_lt {g : List Byte} (h : groupValue g < 2 ^ 32) :
    fullGroup g = .ok (wordBytes (BitVec.ofNat 32 (groupValue g))) := if_pos h

/-- A group of up to four bytes is what its symbols decode to, padded (R67, R131, R133). -/
theorem partialGroup_encodeGroup {b : List Byte} (hb : b.length ≤ 4) :
    partialGroup (encodeGroup b) = .ok b := by
  obtain ⟨hlow, hhigh⟩ := groupValue_padGroup_encodeGroup hb
  obtain ⟨hfits, hbytes⟩ := wordBytes_take hb hlow hhigh
  rw [partialGroup_eq, encodeGroup_length hb, Nat.add_sub_cancel, fullGroup_of_lt hfits,
    keepLeading_ok, hbytes]

/-- Five symbols need no padding, and none of their bytes is cut. -/
theorem partialGroup_of_five {g : List Byte} (hg : g.length = 5) :
    partialGroup g = fullGroup g := by
  rw [partialGroup_eq, padGroup, hg, List.replicate_zero, List.append_nil]
  cases h : fullGroup g with
  | ok out => rw [keepLeading_ok, List.take_of_length_le (fullGroup_length h).le]
  | error e => rfl

theorem decodeGroups_append {g : List Byte} (hg : g.length = 5) (S : List Byte) :
    decodeGroups (g ++ S) = emitThen (fullGroup g) (decodeGroups S) :=
  match g, hg with
  | [c0, c1, c2, c3, c4], _ => decodeGroups_cons c0 c1 c2 c3 c4 S

/-- The groups decode the encoding of a byte sequence back to it (R130, R131, R133). -/
theorem decodeGroups_encodeRadix85 (bs : List Byte) : decodeGroups (encodeRadix85 bs) = .ok bs := by
  induction bs using encodeRadix85.induct with
  | case1 b0 b1 b2 b3 rest ih =>
    have hfive : (encodeGroup [b0, b1, b2, b3]).length = 5 := encodeGroup_length (Nat.le_refl 4)
    have hdecode : fullGroup (encodeGroup [b0, b1, b2, b3]) = .ok [b0, b1, b2, b3] :=
      (partialGroup_of_five hfive).symm.trans (partialGroup_encodeGroup (Nat.le_refl 4))
    rw [encodeRadix85, decodeGroups_append hfive, ih, hdecode]
    rfl
  | case2 => simp [encodeRadix85]
  | case3 b hlong hne =>
    have hshort : b.length < 4 := by
      by_contra hge
      rcases b with _ | ⟨b0, _ | ⟨b1, _ | ⟨b2, _ | ⟨b3, rest⟩⟩⟩⟩
      case cons.cons.cons.cons => exact hlong b0 b1 b2 b3 rest rfl
      all_goals simp at hge
    have hlen := encodeGroup_length hshort.le
    have hsome : encodeGroup b ≠ [] := List.ne_nil_of_length_eq_add_one hlen
    rw [encodeRadix85.eq_3 b hlong hne, decodeGroups_partial hsome (by omega),
      partialGroup_encodeGroup hshort.le]

/-- Settles O18: the delimiters locate the interior, its stripped form is decoded, and the groups
invert the encoding. -/
theorem a85decInvertsEncoding : Obligations.A85decInvertsEncoding := by
  intro s before interior after bytes hfits hin hbefore hstripped
  have hclean : CleanInterior interior :=
    cleanInterior_of_stripped fun b hb => symbolByte_of_mem_encodeRadix85 (hstripped ▸ hb)
  have hdecode : a85Decode s.inBytes = .ok bytes := by
    rw [hin]
    simp only [List.append_assoc, List.cons_append, List.nil_append]
    rw [a85Decode_envelope after hbefore (not_pairAt_end_of_clean hclean),
      decodeInterior_of_clean hclean, hstripped, decodeGroups_encodeRadix85]
  exact ⟨_, exec_of_fits .a85dec hfits, endsOk_commandEnd (i := .a85dec) hdecode⟩

/-! ### `MOVE` -/

/-- Settles O42: on an idle core `MOVE` writes the valid output from address 0 up, and its length to
`IN_LEN`. -/
theorem moveMakesOutputTheInput : Obligations.MoveMakesOutputTheInput := by
  intro s hinv hb
  have hbytes := inBytes_writeBytes_zero s s.outBytes
  rw [outBytes_length] at hbytes
  refine ⟨_, hostMove_idle hb hinv.outFits, hbytes, rfl, fun a ha => ?_, rfl⟩
  exact (inByte_writeBytes_zero s s.outBytes a).trans (by simp [ha])

/-! ### Command codes -/

/-- Settles O1. -/
theorem tableWordsDecode : Obligations.TableWordsDecode := by
  unfold Obligations.TableWordsDecode
  decide

/-- A byte decodes to a command when it is that command's code (R60). -/
theorem decodeByte_eq_ok_iff {c : Byte} {i : Instr} : decodeByte c = .ok i ↔ c = opcode i := by
  constructor
  · intro h
    unfold decodeByte at h
    split at h
    · cases h; assumption
    · split at h
      · cases h; assumption
      · split at h
        · cases h; assumption
        · cases h
  · rintro rfl
    cases i <;> rfl

/-- Bytes decode to a command with a rest when they are its encoding and that rest (R60, R77). -/
theorem decode_eq_ok_iff {bs rest : List Byte} {i : Instr} :
    decode bs = .ok (i, rest) ↔ bs = encode i ++ rest := by
  cases bs with
  | nil => simp [decode, encode]
  | cons c bs =>
    have hcode : decode (c :: bs) = .ok (i, rest) ↔ decodeByte c = .ok i ∧ bs = rest := by
      cases h : decodeByte c <;> simp [decode, h]
    rw [hcode, decodeByte_eq_ok_iff]
    simp [encode]

/-- Settles O2. -/
theorem decodeOfEncode : Obligations.DecodeOfEncode := fun _ _ _ => decode_eq_ok_iff.2 rfl

/-- Settles O3. -/
theorem decodeOnlyEncodings : Obligations.DecodeOnlyEncodings := fun _ _ _ => decode_eq_ok_iff.1

/-- A byte is rejected as reserved when it is no command's code (R77). -/
theorem decodeByte_eq_reserved_iff {c : Byte} :
    decodeByte c = .error (.reserved c) ↔ ∀ i, c ≠ opcode i := by
  constructor
  · rintro h i rfl
    cases i <;> cases h
  · intro h
    have h1 : c ≠ 0x01#8 := h .a85dec
    have h2 : c ≠ 0x02#8 := h .parpack
    have h3 : c ≠ 0x03#8 := h .pktrx
    rw [decodeByte, if_neg h1, if_neg h2, if_neg h3]

/-- The bytes that are no command's code are `0x00` and those from `0x04` up (R77). -/
theorem ne_opcode_iff {c : Byte} : (∀ i, c ≠ opcode i) ↔ c.toNat = 0 ∨ 4 ≤ c.toNat := by
  constructor
  · intro h
    have h1 : c ≠ 0x01#8 := h .a85dec
    have h2 : c ≠ 0x02#8 := h .parpack
    have h3 : c ≠ 0x03#8 := h .pktrx
    bv_omega
  · rintro h i rfl
    cases i <;> simp [opcode] at h

/-- Settles O4. -/
theorem reservedCodesRejected : Obligations.ReservedCodesRejected := by
  intro c
  have hbyte : c.toNat ≤ 255 := Nat.le_of_lt_succ c.isLt
  rw [decodeByte_eq_reserved_iff, ne_opcode_iff]
  omega

/-- A reserved code ends in the error `BadCommand` (R103, R213). -/
theorem endsInError_badCommand (s : State) : EndsInError s s.badCommand 0x18#8 :=
  ⟨rfl, rfl, rfl, sameBesideOutcome_iff.2 rfl⟩

/-- Settles O7: the step is the write of the code, which the decoder rejects. -/
theorem reservedCodeRaisesBadCommand : Obligations.ReservedCodeRaisesBadCommand := by
  intro s c rest ⟨hr, hb⟩ hp hreserved
  have hdecode := decodeByte_eq_reserved_iff.2 (ne_opcode_iff.2 hreserved)
  have hwrite := writeCmd_reserved (s := { s with pending := rest }) hb hdecode
  exact ⟨_, (step_writeCmd hr hb hp).trans hwrite, endsInError_badCommand _⟩

/-! ### Status bytes -/

/-- Settles O14: each is `0x10 | CODE` of its error (R15). -/
theorem errorStatusBytes : Obligations.ErrorStatusBytes := fun _ =>
  ⟨rfl, rfl, rfl, rfl, rfl, rfl, rfl, rfl⟩

/-! ### Parity bytes -/

/-- The exclusive-or of bits says whether an odd number of them is 1. -/
theorem foldl_xor_eq_bodd_count (l : List Bool) (a : Bool) :
    l.foldl xor a = (a ^^ (l.count true).bodd) := by
  induction l generalizing a with
  | nil => simp
  | cons b l ih => cases b <;> simp [ih]

/-- The 1 bits of a byte are those of its flag and of its payload. -/
theorem popcount_eq_count (b : Byte) :
    popcount b = (b.getLsbD 0 :: payloadBits b).count true := by
  have hbits : b.getLsbD 0 :: payloadBits b = [0, 7, 6, 5, 4, 3, 2, 1].map b.getLsbD := rfl
  have hperm : (List.range 8).Perm [0, 7, 6, 5, 4, 3, 2, 1] := by decide
  rw [popcount, hbits, List.count, List.countP_map, hperm.countP_eq]
  exact List.countP_congr (by simp)

/-- A flag matches when the flag and the payload hold an even number of 1 bits between them. -/
theorem flagMatches_iff (b : Byte) : flagMatches b = true ↔ popcount b % 2 = 0 := by
  rw [popcount_eq_count, flagMatches, foldl_xor_eq_bodd_count, Nat.mod_two_of_bodd]
  cases b.getLsbD 0 <;> simp

/-- Settles O19. -/
theorem correctParityIsEvenPopcount : Obligations.CorrectParityIsEvenPopcount := by
  intro b
  have hflag := correctParity_eq_flagMatches b
  exact ⟨hflag, by rw [hflag, flagMatches_iff]⟩

end Sys2Proof.Machine

/-! The commands (spec/40_commands.md): what the outcome of a command depends on, and that a command in
progress comes to its end. -/

namespace Sys2Proof.Machine

open Sys2Proof.Certificates

/-! ### What an outcome depends on -/

/-- Only `PKTRX` reads the filter triple (R60, R171). -/
theorem commandFunction_congr {i : Instr} {f g : FilterTriple} (h : i = .pktrx → f = g)
    (B : List Byte) : commandFunction i f B = commandFunction i g B := by
  cases i with
  | a85dec | parpack => rfl
  | pktrx => rw [h rfl]

/-- Settles O12: equal input bytes, and for `PKTRX` equal triples, give the command's function the same
answer, which alone decides the outcome. -/
theorem commandsArePure : Obligations.CommandsArePure := by
  intro i s u t v hbytes htriple hs hu
  obtain ⟨-, rfl⟩ := exec_next hs
  obtain ⟨-, rfl⟩ := exec_next hu
  apply commandEnd_congr
  rw [hbytes, commandFunction_congr htriple]

/-- A command's start overwrites all that an earlier outcome left, and its capacity test and its input
do not depend on that (R16, R100, R214). -/
theorem runCommand_of_outcome (f : List Byte → Except CmdError (List Byte)) (s : State) (st : Byte)
    (n : Nat) (m : Memory) :
    runCommand f { s with status := st, outLen := n, outBuf := m } = runCommand f s := rfl

/-- Settles O13: every command is a shared run, over a function in which the earlier outcome has no
part. -/
theorem earlierOutcomeLeavesNothing : Obligations.EarlierOutcomeLeavesNothing := by
  intro i s st n m
  calc exec i { s with status := st, outLen := n, outBuf := m }
    _ = runCommand (commandFunction i s.filterTriple)
          { s with status := st, outLen := n, outBuf := m } := exec_eq i _
    _ = runCommand (commandFunction i s.filterTriple) s := runCommand_of_outcome _ s st n m
    _ = exec i s := (exec_eq i s).symm

/-! ### The end of a command in progress -/

theorem idle_applyReset (s : State) : Idle s.applyReset := ⟨rfl, by simp [State.busy]⟩

theorem idle_commandEnd (i : Instr) {s : State} (hr : s.running = none) : Idle (commandEnd i s) :=
  ⟨(commandEnd_running i s).trans hr, commandEnd_busy i s⟩

/-- A command in progress ends by itself or by a reset. Each step before either serves one of the
accesses left inside its run, and keeps `BUSY` and `IN_LEN` (R47, R102, R241). -/
theorem run_until_idle {s : State} {i : Instr} {left : Nat} (hb : s.busy = true)
    (hf : s.lenFits s.inLen = true) (hr : s.running = some { instr := i, left := left })
    (hp : ∀ a ∈ s.pending, ServedWithoutReset s a ∨ a = .reset) :
    ∃ n t, n ≤ left + 1 ∧ Sys2Proof.core.run n s = .next t ∧ Idle t := by
  induction left generalizing s with
  | zero =>
    exact ⟨1, _, Nat.le_refl 1, run_succ (step_complete hr (.inl rfl) hf), idle_commandEnd i rfl⟩
  | succ left ih =>
    cases hpend : s.pending with
    | nil =>
      exact ⟨1, _, by omega, run_succ (step_complete hr (.inr hpend) hf), idle_commandEnd i rfl⟩
    | cons a rest =>
      have hstep := step_serve_running hr hpend
      rw [hpend] at hp
      rcases hp a List.mem_cons_self with hserved | rfl
      · obtain ⟨l, d, hserve⟩ := hostServe_busy
          (s := { s with pending := rest, running := some { instr := i, left := left } }) hb hserved
        obtain ⟨n, t, hn, hrun, hidle⟩ := ih (s := { s with
            pending := rest, running := some { instr := i, left := left }, hostReads := l,
            draws := d }) hb hf rfl fun x hx => hp x (List.mem_cons_of_mem a hx)
        exact ⟨n + 1, t, by omega, (run_succ (hstep.trans hserve)).trans hrun, hidle⟩
      · exact ⟨1, _, by omega, run_succ hstep, idle_applyReset _⟩

/-- Settles O41: under the invariant a command in progress has `BUSY = 1` and an `IN_LEN` that fits, so
it runs until the core is idle. -/
theorem runningCommandEnds : Obligations.RunningCommandEnds := by
  intro s r h hr hp
  have hrunning : s.running.isSome = true := by rw [hr]; rfl
  exact run_until_idle (h.busyRunning.trans hrunning) (h.runningFits hrunning) hr hp

end Sys2Proof.Machine

/-! The Radix85 Codec (spec/41_radix85.md): which error `A85DEC` reports, and what its groups decode
to. -/

namespace Sys2Proof.Machine

open Sys2Proof.Certificates

/-! ### The envelope of an input -/

/-- Where the first delimiters are located, the bytes between them are decoded (R121 to R123). -/
theorem a85Decode_of_located {B : List Byte} {p e : Nat} (hstart : FirstStart B p)
    (hend : FirstEnd B p e) : a85Decode B = decodeInterior ((B.take e).drop (p + 2)) := by
  obtain ⟨hle, hpair, hleast⟩ := hend
  have hfindStart : findStart B = some p := findPair_of_least hstart.1 hstart.2
  have hfindEnd : findEnd B p = some e := findEnd_of_least hle hpair hleast
  simp only [a85Decode, hfindStart, hfindEnd, slice, List.drop_take]

/-- An input without an envelope is `MissingDelimiter` (R121, R122). -/
theorem a85Decode_of_not_located {B : List Byte}
    (h : ¬ ∃ p e, FirstStart B p ∧ FirstEnd B p e) : a85Decode B = .error .missingDelimiter := by
  cases hstart : findStart B with
  | none => simp only [a85Decode, hstart]
  | some p =>
    cases hend : findEnd B p with
    | none => simp only [a85Decode, hstart, hend]
    | some e => exact absurd ⟨p, e, findPair_eq_some hstart, findEnd_eq_some hend⟩ h

/-! ### The checks of the interior -/

/-- A byte of 128 or more anywhere in the interior is `NonAsciiInput` (R126). -/
theorem decodeInterior_of_nonAscii {I : List Byte} (h : ∃ b ∈ I, 128 ≤ b.toNat) :
    decodeInterior I = .error .nonAsciiInput := by
  rw [decodeInterior, if_pos (by simpa using h)]

/-- Where every byte is ASCII, one that is neither symbol nor whitespace is `InvalidSymbol`
(R128). -/
theorem decodeInterior_of_invalid {I : List Byte} (hascii : ∀ b ∈ I, b.toNat < 128)
    (h : ∃ b ∈ I, ¬ SymbolByte b ∧ ¬ BlankByte b) :
    decodeInterior I = .error .invalidSymbol := by
  have hinvalid : I.any (fun b => !(isSymbol b || isWhitespace b)) = true := by
    simpa [← isSymbol_iff, ← isWhitespace_iff] using h
  rw [decodeInterior, if_neg (by simpa using hascii), if_pos hinvalid]

/-! ### One group -/

/-- The five symbols of a padded group are its own and then `u` (R67, R133). -/
theorem padGroup_eq_map {g : List Byte} (hg : g.length ≤ 5) :
    padGroup g = (List.range 5).map fun i => g.getD i 117#8 := by
  refine List.ext_getElem (by simp [padGroup]; omega) fun i _ _ => ?_
  by_cases hi : i < g.length <;> simp [padGroup, padSymbol, List.getElem_append, hi]

/-- The weighted sum of R131 is what the model's `V <- V*85 + d_i` forms (R68). -/
theorem groupValue_padGroup {g : List Byte} (hg : g.length ≤ 5) :
    groupValue (padGroup g) = paddedValue g := by
  rw [padGroup_eq_map hg]
  simp only [groupValue, List.range_succ, List.range_zero, List.nil_append, List.cons_append,
    List.map_cons, List.map_nil, List.foldl_cons, List.foldl_nil, symbolDigit, paddedValue,
    paddedDigit]
  omega

/-- A byte of a word is a quotient of its value, cut to eight bits. -/
theorem extractLsb'_ofNat_eq_div {V k : Nat} (hk : k + 8 ≤ 32) :
    (BitVec.ofNat 32 V).extractLsb' k 8 = BitVec.ofNat 8 (V / 2 ^ k) := by
  refine extractByte_ofNat ?_
  obtain ⟨j, hj⟩ := Nat.exists_eq_add_of_le hk
  rw [hj, Nat.add_assoc, Nat.pow_add, Nat.mod_mul_right_div_self, BitVec.toNat_ofNat,
    Nat.mod_mod_of_dvd _ (Nat.pow_dvd_pow 2 (Nat.le_add_right 8 j))]

theorem wordBytes_ofNat (V : Nat) :
    wordBytes (BitVec.ofNat 32 V) =
      [V / 2 ^ 24, V / 2 ^ 16, V / 2 ^ 8, V].map (BitVec.ofNat 8) := by
  have hlow := extractLsb'_ofNat_eq_div (V := V) (k := 0) (by decide)
  rw [Nat.pow_zero, Nat.div_one] at hlow
  simp [wordBytes, extractLsb'_ofNat_eq_div, hlow]

/-- A group whose padded value fits 32 bits decodes to its leading bytes (R131, R133). -/
theorem partialGroup_of_lt {g : List Byte} (hg : g.length ≤ 5) (hv : paddedValue g < 2 ^ 32) :
    partialGroup g = .ok (groupOutput g) := by
  rw [← groupValue_padGroup hg] at hv
  rw [partialGroup_eq, fullGroup_of_lt hv, keepLeading_ok, wordBytes_ofNat, groupValue_padGroup hg,
    groupOutput]

/-- A group whose padded value does not fit 32 bits is `GroupOverflow` (R132, R133). -/
theorem partialGroup_of_overflow {g : List Byte} (hg : g.length ≤ 5)
    (hv : 2 ^ 32 ≤ paddedValue g) : partialGroup g = .error .groupOverflow := by
  rw [← groupValue_padGroup hg] at hv
  rw [partialGroup_eq, fullGroup, if_neg (Nat.not_lt.2 hv), keepLeading_error]

/-- A group yields one byte fewer than it has symbols (R67, R135). -/
theorem groupOutput_length {g : List Byte} (hg : g.length ≤ 5) :
    (groupOutput g).length = g.length - 1 := by
  simp only [groupOutput, List.length_take, List.length_map, List.length_cons, List.length_nil]
  omega

/-! ### The groups of a sequence, the first one and the others -/

theorem groupCount_eq_zero_iff {S : List Byte} : groupCount S = 0 ↔ S = [] := by
  rw [← List.length_eq_zero_iff, groupCount]
  omega

theorem groupCount_of_ne_nil {S : List Byte} (hS : S ≠ []) :
    groupCount S = groupCount (S.drop 5) + 1 := by
  have := List.length_pos_iff.2 hS
  rw [groupCount, groupCount, List.length_drop]
  omega

theorem groupAt_zero (S : List Byte) : groupAt S 0 = S.take 5 := rfl

theorem groupAt_succ (S : List Byte) (g : Nat) : groupAt S (g + 1) = groupAt (S.drop 5) g := by
  rw [groupAt, groupAt, List.drop_drop, Nat.mul_succ, Nat.add_comm]

/-- Induction over the groups of a sequence: none, or a first one and the others (R130). -/
theorem groups_induction {motive : List Byte → Prop} (nil : motive [])
    (group : ∀ S, S ≠ [] → motive (S.drop 5) → motive S) (S : List Byte) : motive S := by
  induction hn : groupCount S generalizing S with
  | zero => exact groupCount_eq_zero_iff.1 hn ▸ nil
  | succ n ih =>
    have hS : S ≠ [] := fun h => by simp [groupCount_eq_zero_iff.2 h] at hn
    exact group S hS (ih _ (Nat.succ.inj ((groupCount_of_ne_nil hS).symm.trans hn)))

/-- The output of every group of a sequence, in order (R130, R134). -/
def groupsOutput (S : List Byte) : List Byte :=
  (List.range (groupCount S)).flatMap fun g => groupOutput (groupAt S g)

theorem groupsOutput_nil : groupsOutput [] = [] := rfl

theorem groupsOutput_of_ne_nil {S : List Byte} (hS : S ≠ []) :
    groupsOutput S = groupOutput (S.take 5) ++ groupsOutput (S.drop 5) := by
  rw [groupsOutput, groupCount_of_ne_nil hS, List.range_succ_eq_map, List.flatMap_cons,
    List.flatMap_map, groupAt_zero]
  simp only [groupAt_succ, groupsOutput]

theorem not_someGroupOverflows_nil : ¬ SomeGroupOverflows [] :=
  fun ⟨_, hg, _⟩ => Nat.not_lt_zero _ hg

theorem someGroupOverflows_iff_of_ne_nil {S : List Byte} (hS : S ≠ []) :
    SomeGroupOverflows S ↔ 2 ^ 32 ≤ paddedValue (S.take 5) ∨ SomeGroupOverflows (S.drop 5) := by
  simp only [SomeGroupOverflows, groupCount_of_ne_nil hS, Nat.exists_lt_succ_left, groupAt_zero,
    groupAt_succ]

theorem emitThen_ok_nil (r : Except CmdError (List Byte)) : emitThen r (.ok []) = r := by
  cases r with
  | ok out => rw [emitThen_ok_ok, List.append_nil]
  | error e => rfl

/-- A group of fewer than five symbols leaves nothing after it, so decoding is uniform: the
first group, padded if it is short, and then the others (R130, R133). -/
theorem decodeGroups_of_ne_nil {S : List Byte} (hS : S ≠ []) :
    decodeGroups S = emitThen (partialGroup (S.take 5)) (decodeGroups (S.drop 5)) := by
  by_cases hlen : S.length < 5
  · rw [List.take_of_length_le hlen.le, List.drop_of_length_le hlen.le, decodeGroups_nil,
      decodeGroups_partial hS hlen, emitThen_ok_nil]
  · have hfive : (S.take 5).length = 5 := List.length_take_of_le (Nat.le_of_not_lt hlen)
    rw [partialGroup_of_five hfive, ← decodeGroups_append hfive, List.take_append_drop]

/-- Groups that all fit 32 bits decode to their outputs in order (R130, R134). -/
theorem decodeGroups_of_not_overflow {S : List Byte} (h : ¬ SomeGroupOverflows S) :
    decodeGroups S = .ok (groupsOutput S) := by
  induction S using groups_induction with
  | nil => rw [decodeGroups_nil, groupsOutput_nil]
  | group S hS ih =>
    rw [someGroupOverflows_iff_of_ne_nil hS, not_or, Nat.not_le] at h
    obtain ⟨hfirst, hothers⟩ := h
    rw [decodeGroups_of_ne_nil hS, partialGroup_of_lt (List.length_take_le 5 S) hfirst, ih hothers,
      emitThen_ok_ok, groupsOutput_of_ne_nil hS]

/-- One group that does not fit 32 bits, the first or a later one, makes the whole decoding
`GroupOverflow` (R132). -/
theorem decodeGroups_of_overflow {S : List Byte} (h : SomeGroupOverflows S) :
    decodeGroups S = .error .groupOverflow := by
  induction S using groups_induction with
  | nil => exact absurd h not_someGroupOverflows_nil
  | group S hS ih =>
    rw [decodeGroups_of_ne_nil hS]
    by_cases hfirst : 2 ^ 32 ≤ paddedValue (S.take 5)
    · rw [partialGroup_of_overflow (List.length_take_le 5 S) hfirst, emitThen_error_left]
    · have hothers := ((someGroupOverflows_iff_of_ne_nil hS).1 h).resolve_left hfirst
      rw [partialGroup_of_lt (List.length_take_le 5 S) (Nat.lt_of_not_le hfirst), ih hothers,
        emitThen_error_right]

/-- The length of the output in terms of that of the stripped sequence (R135). -/
theorem groupsOutput_length (S : List Byte) :
    (groupsOutput S).length = 4 * (S.length / 5) + (S.length % 5 - 1) := by
  induction S using groups_induction with
  | nil => rfl
  | group S hS ih =>
    have hpos := List.length_pos_iff.2 hS
    rw [groupsOutput_of_ne_nil hS, List.length_append, ih,
      groupOutput_length (List.length_take_le 5 S), List.length_take, List.length_drop]
    omega

/-! ### The outcome of `A85DEC` -/

/-- A command whose function answers an error ends in it, and changes nothing else (R213). -/
theorem endsInError_commandEnd {i : Instr} {s : State} {e : CmdError}
    (h : commandFunction i s.filterTriple s.inBytes = .error e) :
    EndsInError s (commandEnd i s) (statusDone e.code) := by
  refine ⟨?_, ?_, ?_, sameBesideOutcome_iff.2 (commandEnd_frame i s)⟩ <;>
    simp [commandEnd_error h]

/-- `A85DEC` within capacity ends in the error its decoding answers. -/
theorem a85dec_endsInError {s : State} {e : CmdError} (hfits : s.lenFits s.inLen = true)
    (h : a85Decode s.inBytes = .error e) :
    ∃ t, exec .a85dec s = .next t ∧ EndsInError s t (statusDone e.code) :=
  ⟨_, exec_of_fits .a85dec hfits, endsInError_commandEnd (i := .a85dec) h⟩

/-- Settles O16: the search for the envelope, the two checks of the interior and the groups come in
this order, each over the whole interior before the next. -/
theorem a85decErrorPrecedence : Obligations.A85decErrorPrecedence := by
  intro s hfits
  refine ⟨fun hnone => a85dec_endsInError hfits (a85Decode_of_not_located hnone), ?_⟩
  rintro p e I hstart hend rfl
  have hdecode := a85Decode_of_located hstart hend
  refine ⟨fun hhigh => ?nonAscii, fun hascii hbad => ?invalid, fun hclean hoverflow => ?overflow⟩
  case nonAscii =>
    exact a85dec_endsInError hfits (hdecode.trans (decodeInterior_of_nonAscii hhigh))
  case invalid =>
    exact a85dec_endsInError hfits (hdecode.trans (decodeInterior_of_invalid hascii hbad))
  case overflow =>
    rw [decodeInterior_of_clean hclean, decodeGroups_of_overflow hoverflow] at hdecode
    exact a85dec_endsInError hfits hdecode

/-- Settles O17: a clean interior is decoded group by group, and no group overflows. -/
theorem a85decDecodesGroups : Obligations.A85decDecodesGroups := by
  rintro s p e I hfits hstart hend rfl hclean hnone
  have hdecode := a85Decode_of_located hstart hend
  rw [decodeInterior_of_clean hclean, decodeGroups_of_not_overflow hnone] at hdecode
  obtain ⟨hstatus, hlen, hrest⟩ := endsOk_commandEnd (i := .a85dec) (s := s) hdecode
  exact ⟨_, exec_of_fits .a85dec hfits, ⟨hstatus, hlen, hrest⟩, hlen.trans (groupsOutput_length _)⟩

end Sys2Proof.Machine

/-! The outcome of `PARPACK` (spec/42_parity.md): success or `MisalignedInput` by the retained count,
and the retained bytes as all that is seen of the input. -/

namespace Sys2Proof.Machine

open Sys2Proof.Certificates

/-- Retained bytes that do not fill their last group are refused (R153). -/
theorem parityCombine_of_partial_group {B : List Byte} (h : (keptBytes B).length % 8 ≠ 0) :
    parityCombine B = .error .misalignedInput := by
  rw [parityCombine, retained_eq_keptBytes, if_pos h]

/-- The packing sees the retained bytes only (R152). -/
theorem parityCombine_congr {A B : List Byte} (h : keptBytes A = keptBytes B) :
    parityCombine A = parityCombine B := by
  simp only [parityCombine, retained_eq_keptBytes, h]

/-- Settles O20: the retained count decides between the error and the packed groups, seven bytes for
eight. -/
theorem parpackOutcome : Obligations.ParpackOutcome := by
  intro s hfits
  refine ⟨fun hpartial => ?misaligned, fun hwhole => ?packed⟩
  case misaligned =>
    exact ⟨_, exec_of_fits .parpack hfits,
      endsInError_commandEnd (i := .parpack) (parityCombine_of_partial_group hpartial)⟩
  case packed =>
    obtain ⟨hstatus, hlen, hrest⟩ :=
      endsOk_commandEnd (i := .parpack) (s := s) (parityCombine_of_whole_groups hwhole)
    refine ⟨_, _, exec_of_fits .parpack hfits, ⟨hstatus, hlen, hrest⟩, ?_⟩
    rw [hlen, packGroups_length, Nat.mul_div_assoc 7 (Nat.dvd_of_mod_eq_zero hwhole)]

/-- Settles O22: the two commands compute the same result from the same retained bytes. -/
theorem parpackDropsIncorrectBytes : Obligations.ParpackDropsIncorrectBytes := by
  intro s u t v hkept hs hu
  obtain ⟨-, rfl⟩ := exec_next hs
  obtain ⟨-, rfl⟩ := exec_next hu
  exact commandEnd_congr (i := .parpack) (parityCombine_congr hkept)

end Sys2Proof.Machine

/-! The one's-complement checksum (spec/43_packet.md): the fold as arithmetic modulo 65535, and a
valid checksum as a sum of words that is a multiple of 65535. -/

namespace Sys2Proof.Machine

open Sys2Proof.Certificates

/-! ### The fold of two words -/

/-- The fold as a number: the low half of the sum plus its carry (R184). -/
theorem toNat_fold16 (a b : Half) :
    (fold16 a b).toNat = (a.toNat + b.toNat) % 65536 + (a.toNat + b.toNat) / 65536 := by
  have ha := a.isLt
  have hb := b.isLt
  simp only [fold16, BitVec.toNat_add, BitVec.toNat_setWidth, BitVec.toNat_ushiftRight,
    Nat.shiftRight_eq_div_pow]
  omega

/-- Modulo 65535 the fold is addition: the carry weighs 65536. -/
theorem fold16_modEq (a b : Half) : (fold16 a b).toNat ≡ a.toNat + b.toNat [MOD 65535] := by
  rw [toNat_fold16, Nat.ModEq]
  omega

theorem toNat_fold16_eq_zero_iff {a b : Half} :
    (fold16 a b).toNat = 0 ↔ a.toNat = 0 ∧ b.toNat = 0 := by
  have ha := a.isLt
  have hb := b.isLt
  rw [toNat_fold16]
  omega

/-- A word is known by its residue modulo 65535 and by whether it is 0, since only 0 and 65535 share
a residue. -/
theorem half_eq_of_modEq {a b : Half} (hmod : a.toNat ≡ b.toNat [MOD 65535])
    (hzero : a.toNat = 0 ↔ b.toNat = 0) : a = b := by
  have ha := a.isLt
  have hb := b.isLt
  rw [Nat.ModEq] at hmod
  exact BitVec.eq_of_toNat_eq (by omega)

theorem fold16_comm (a b : Half) : fold16 a b = fold16 b a := by
  apply BitVec.eq_of_toNat_eq
  rw [toNat_fold16, toNat_fold16, Nat.add_comm a.toNat]

theorem fold16_assoc (a b c : Half) : fold16 (fold16 a b) c = fold16 a (fold16 b c) := by
  apply half_eq_of_modEq
  · calc (fold16 (fold16 a b) c).toNat
      _ ≡ (fold16 a b).toNat + c.toNat [MOD 65535] := fold16_modEq _ _
      _ ≡ a.toNat + b.toNat + c.toNat [MOD 65535] := (fold16_modEq a b).add_right _
      _ = a.toNat + (b.toNat + c.toNat) := Nat.add_assoc _ _ _
      _ ≡ a.toNat + (fold16 b c).toNat [MOD 65535] := ((fold16_modEq b c).symm).add_left _
      _ ≡ (fold16 a (fold16 b c)).toNat [MOD 65535] := (fold16_modEq _ _).symm
  · simp only [toNat_fold16_eq_zero_iff, and_assoc]

/-- The seed of a checksum leaves a word other than 0 as it is (R185). -/
theorem fold16_allOnes {w : Half} (hw : w ≠ 0#16) : fold16 allOnes w = w := by
  have hpos : w.toNat ≠ 0 := fun h => hw (BitVec.eq_of_toNat_eq h)
  apply half_eq_of_modEq
  · exact (fold16_modEq _ _).trans Nat.add_modEq_left
  · simp [toNat_fold16_eq_zero_iff, hpos]

/-- Settles O23: the fold is addition modulo 65535, and only words that are both 0 fold to 0. -/
theorem foldIsOnesComplementAddition : Obligations.FoldIsOnesComplementAddition :=
  ⟨toNat_fold16, fold16_comm, fold16_assoc, fun _ => fold16_allOnes, by decide⟩

/-! ### The checksum of a sequence -/

/-- Folding words into a word other than 0 adds them modulo 65535 and never gives 0. -/
theorem foldl_fold16_ne_zero_and_modEq (ws : List Half) {a : Half} (ha : a.toNat ≠ 0) :
    (ws.foldl fold16 a).toNat ≠ 0 ∧
      (ws.foldl fold16 a).toNat ≡ a.toNat + (ws.map BitVec.toNat).sum [MOD 65535] := by
  induction ws generalizing a with
  | nil => exact ⟨ha, Nat.ModEq.refl _⟩
  | cons w ws ih =>
    obtain ⟨hne, hmod⟩ := ih (a := fold16 a w) fun h => ha (toNat_fold16_eq_zero_iff.1 h).1
    refine ⟨hne, hmod.trans ?_⟩
    rw [List.map_cons, List.sum_cons, ← Nat.add_assoc]
    exact (fold16_modEq a w).add_right _

theorem toNat_append_byte (a b : Byte) : (a ++ b : Half).toNat = 256 * a.toNat + b.toNat := by
  rw [BitVec.toNat_append, Nat.shiftLeft_eq, Nat.mul_comm, ← Nat.two_pow_add_eq_or_of_lt b.isLt]

/-- Two bytes further on, a byte is the same half of its word. -/
theorem wordSum_cons_cons (a b : Byte) (S : List Byte) :
    wordSum (a :: b :: S) = 256 * a.toNat + b.toNat + wordSum S := by
  have hshift : S.zipIdx 2 = S.zipIdx.map fun p => (p.1, 2 + p.2) := List.zipIdx_eq_map_add
  simp [wordSum, List.zipIdx_cons, hshift, Function.comp_def, Nat.add_assoc]

/-- The words of the two readings of a sequence add up alike (R185). -/
theorem sum_checksumWords (S : List Byte) :
    ((checksumWords S).map BitVec.toNat).sum = wordSum S := by
  induction S using checksumWords.induct with
  | case1 => rfl
  | case2 a => simp [checksumWords, wordSum, toNat_append_byte]
  | case3 a b S ih =>
    rw [checksumWords, List.map_cons, List.sum_cons, ih, toNat_append_byte, wordSum_cons_cons]

/-- A checksum as a number: never 0, and the sum of the words modulo 65535. -/
theorem csum_ne_zero_and_modEq (S : List Byte) :
    (csum S).toNat ≠ 0 ∧ (csum S).toNat ≡ wordSum S [MOD 65535] := by
  obtain ⟨hne, hmod⟩ :=
    foldl_fold16_ne_zero_and_modEq (checksumWords S) (a := allOnes) (by decide)
  rw [sum_checksumWords] at hmod
  exact ⟨hne, hmod.trans Nat.add_modEq_left⟩

/-- A checksum is valid iff the words add up to a multiple of 65535 (R185). -/
theorem csum_eq_allOnes_iff (S : List Byte) : csum S = allOnes ↔ wordSum S % 65535 = 0 := by
  obtain ⟨hne, hmod⟩ := csum_ne_zero_and_modEq S
  constructor
  · intro h
    rw [← hmod, h]
    rfl
  · intro h
    exact half_eq_of_modEq (hmod.trans h) (iff_of_false hne (by decide))

/-- Settles O24. -/
theorem checksumValidIffSumIsMultiple : Obligations.ChecksumValidIffSumIsMultiple :=
  csum_eq_allOnes_iff

end Sys2Proof.Machine

/-! The outcome of `PKTRX` (spec/43_packet.md): a pass of the loop in terms of the bytes from its
cursor on, the kept packets of a stream, and the two errors. -/

namespace Sys2Proof.Machine

open Sys2Proof.Certificates

/-! ### Slices and fields -/

theorem slice_append_left (pre R : List Byte) (i j : Nat) :
    slice (pre ++ R) (pre.length + i) (pre.length + j) = slice R i j := by
  rw [slice, slice, List.drop_append, List.drop_of_length_le (Nat.le_add_right _ _)]
  simp [Nat.add_sub_add_left]

theorem be16_take {S : List Byte} {n i : Nat} (h : i + 1 < n) : be16 (S.take n) i = be16 S i := by
  simp [be16, byteAt, List.getElem?_take_of_lt h, List.getElem?_take_of_lt (Nat.lt_of_succ_lt h)]

theorem be32_take {S : List Byte} {n i : Nat} (h : i + 3 < n) : be32 (S.take n) i = be32 S i := by
  rw [be32, be32, be16_take (by omega), be16_take h]

/-- The declared length in a header is that of the packet it starts (R75). -/
theorem parseHeader_ulen (R : List Byte) :
    (parseHeader (R.take 28)).ulen.toNat = declaredLength R :=
  congrArg BitVec.toNat (be16_take (by decide))

/-! ### The tests of a packet -/

/-- A comparison with the sentinel is the rule on the sum of the words (R185). -/
theorem csum_beq_allOnes (S : List Byte) : (csum S == allOnes) = (wordSum S % 65535 == 0) := by
  rw [Bool.eq_iff_iff, beq_iff_eq, beq_iff_eq, csum_eq_allOnes_iff]

/-- The bytes of the UDP checksum, cut from the header and the payload, are those of the packet
(R178, R187). -/
theorem pseudoHeader_append (p : List Byte) :
    pseudoHeader (p.take 28) ++ slice (p.take 28) 20 28 ++ p.drop 28 = udpSummed p := by
  have hrest : (p.drop 20).take 8 ++ p.drop 28 = p.drop 20 := by
    rw [← List.drop_drop (i := 8) (j := 20), List.take_append_drop]
  simp [pseudoHeader, slice, udpSummed, List.drop_take, List.take_take, hrest]

/-- The model's test of a packet, on its header and its payload, is that of the rules
(R186 to R189). -/
theorem keepPacket_eq_keptPacket (f : FilterTriple) (p : List Byte) :
    keepPacket f (p.take 28) (p.drop 28) = keptPacket f p := by
  have hip : ipOk (p.take 28) = (wordSum (p.take 20) % 65535 == 0) := by
    rw [ipOk, csum_beq_allOnes, slice, List.drop_zero, List.take_take]
    rfl
  have hudp : udpOk (p.take 28) (p.drop 28) = (wordSum (udpSummed p) % 65535 == 0) := by
    rw [udpOk, pseudoHeader_append, csum_beq_allOnes]
  have hflt : fltOk f (parseHeader (p.take 28)) =
      (be32 p 12 == f.src && be32 p 16 == f.dst && be16 p 22 == f.dport) := by
    simp (disch := decide) only [fltOk, parseHeader, be32_take, be16_take]
  simp only [keepPacket, hip, hudp, hflt, keptPacket, Bool.and_assoc]

/-! ### One pass of the loop, by the bytes from the cursor on -/

section OnePass

variable (f : FilterTriple) (pre : List Byte) {R : List Byte}

/-- No byte is left (R173). -/
theorem packetPass_nil : packetPass f pre pre.length = .done := by
  rw [packetPass, if_pos rfl]

/-- Too few bytes for a header: an error at the first packet only (R173, R174). -/
theorem packetPass_short (hpos : 0 < R.length) (hlt : R.length < 28) :
    packetPass f (pre ++ R) pre.length = if pre = [] then .fail .truncatedHeader else .done := by
  rw [packetPass, List.length_append, if_neg (by omega), if_pos (by rw [headerLength]; omega)]
  simp only [List.length_eq_zero_iff]

/-- A whole header: what its declared length decides (R180, R181, R189). -/
theorem packetPass_header (h : 28 ≤ R.length) :
    packetPass f (pre ++ R) pre.length =
      if declaredLength R < 8 then .fail .badLength
      else if R.length < 20 + declaredLength R then .done
      else .packet
        (if keepPacket f (R.take 28) (slice R 28 (20 + declaredLength R))
          then slice R 28 (20 + declaredLength R) else [])
        (pre.length + (20 + declaredLength R)) := by
  have hH : slice (pre ++ R) pre.length (pre.length + 28) = R.take 28 :=
    slice_append_left pre R 0 28
  rw [packetPass, List.length_append, headerLength, if_neg (by omega), if_neg (by omega)]
  simp only [hH, parseHeader_ulen]
  split
  · rfl
  · next hd =>
    have hend : pre.length + 28 + (declaredLength R - 8) =
        pre.length + (20 + declaredLength R) := by omega
    rw [hend, slice_append_left]
    exact if_congr (by omega) rfl rfl

theorem packetPass_badLength (h : 28 ≤ R.length) (hd : declaredLength R < 8) :
    packetPass f (pre ++ R) pre.length = .fail .badLength := by
  rw [packetPass_header f pre h, if_pos hd]

/-- A packet whose payload is incomplete ends the loop (R181). -/
theorem packetPass_incomplete (h : 28 ≤ R.length) (hd : 8 ≤ declaredLength R)
    (hlt : R.length < 20 + declaredLength R) : packetPass f (pre ++ R) pre.length = .done := by
  rw [packetPass_header f pre h, if_neg hd.not_gt, if_pos hlt]

end OnePass

/-- A complete packet: its payload if it is kept, and the cursor behind it (R183, R189). -/
theorem packetPass_complete (f : FilterTriple) (pre rest : List Byte) {p : List Byte}
    (h : CompletePacket p) :
    packetPass f (pre ++ (p ++ rest)) pre.length =
      .packet (if keptPacket f p then p.drop 28 else []) (pre ++ p).length := by
  obtain ⟨hlen, hdecl⟩ := h
  have hd : declaredLength (p ++ rest) = declaredLength p := by
    rw [← parseHeader_ulen, List.take_append_of_le_length hlen, parseHeader_ulen]
  have hP : slice (p ++ rest) 28 p.length = p.drop 28 := by
    rw [slice, List.drop_append_of_le_length hlen, List.take_left' (List.length_drop)]
  rw [packetPass_header f pre (by rw [List.length_append]; omega), hd, ← hdecl, hP,
    List.take_append_of_le_length hlen, keepPacket_eq_keptPacket, if_neg (by omega),
    if_neg (by simp), List.length_append]

/-! ### The loop over a stream -/

theorem emitThen_emitThen (x y : List Byte) (r : Except CmdError (List Byte)) :
    emitThen (.ok x) (emitThen (.ok y) r) = emitThen (.ok (x ++ y)) r := by
  cases r with
  | ok out => simp
  | error e => rfl

theorem emitThen_nil_left (r : Except CmdError (List Byte)) : emitThen (.ok []) r = r := by
  cases r <;> rfl

/-- The payloads a stream of packets delivers, in stream order (R183, R189). -/
def keptPayloads (f : FilterTriple) (packets : List (List Byte)) : List Byte :=
  (packets.filter (keptPacket f)).flatMap (·.drop 28)

theorem keptPayloads_nil (f : FilterTriple) : keptPayloads f [] = [] := rfl

theorem keptPayloads_cons (f : FilterTriple) (p : List Byte) (packets : List (List Byte)) :
    keptPayloads f (p :: packets) =
      (if keptPacket f p then p.drop 28 else []) ++ keptPayloads f packets := by
  rw [keptPayloads, List.filter_cons]
  split <;> rfl

/-- The loop over complete packets gathers the kept payloads and goes on behind the packets. -/
theorem packetsFrom_packets (f : FilterTriple) (pre : List Byte) {packets : List (List Byte)}
    (tail : List Byte) (h : ∀ p ∈ packets, CompletePacket p) :
    packetsFrom f (pre ++ (packets.flatten ++ tail)) pre.length =
      emitThen (.ok (keptPayloads f packets))
        (packetsFrom f ((pre ++ packets.flatten) ++ tail) (pre ++ packets.flatten).length) := by
  induction packets generalizing pre with
  | nil => simp [keptPayloads_nil, emitThen_nil_left]
  | cons p packets ih =>
    obtain ⟨hp, hrest⟩ := List.forall_mem_cons.1 h
    rw [packetsFrom_eq, List.flatten_cons, List.append_assoc, packetPass_complete f pre _ hp]
    have hloop := ih (pre ++ p) hrest
    simp only [List.append_assoc] at hloop ⊢
    rw [hloop, emitThen_emitThen, keptPayloads_cons]

/-- The whole input: the kept payloads of its complete packets, and what the loop makes of the
tail. -/
theorem reconstruct_packets (f : FilterTriple) {packets : List (List Byte)} (tail : List Byte)
    (h : ∀ p ∈ packets, CompletePacket p) :
    reconstruct f (packets.flatten ++ tail) =
      emitThen (.ok (keptPayloads f packets))
        (packetsFrom f (packets.flatten ++ tail) packets.flatten.length) :=
  packetsFrom_packets f [] tail h

/-- Complete packets are not empty, so after one of them the cursor is past the start. -/
theorem flatten_ne_nil_of_completePacket {packets : List (List Byte)}
    (hne : packets ≠ []) (h : ∀ p ∈ packets, CompletePacket p) : packets.flatten ≠ [] := by
  obtain ⟨p, hp⟩ := List.exists_mem_of_ne_nil packets hne
  intro hnil
  have hlen := (h p hp).1
  rw [List.flatten_eq_nil_iff.1 hnil p hp] at hlen
  exact absurd hlen (by decide)

/-- A benign tail ends the loop with success and nothing emitted (R173, R174, R181). -/
theorem packetsFrom_benignTail (f : FilterTriple) {packets : List (List Byte)} {tail : List Byte}
    (h : ∀ p ∈ packets, CompletePacket p) (ht : BenignTail packets tail) :
    packetsFrom f (packets.flatten ++ tail) packets.flatten.length = .ok [] := by
  have hdone : packetPass f (packets.flatten ++ tail) packets.flatten.length = .done := by
    obtain rfl | ⟨hpos, hlt, hne⟩ | ⟨hlen, hd, hlt⟩ := ht
    · rw [List.append_nil, packetPass_nil]
    · rw [packetPass_short f _ hpos hlt, if_neg (flatten_ne_nil_of_completePacket hne h)]
    · exact packetPass_incomplete f _ hlen hd hlt
  rw [packetsFrom_eq, hdone]

theorem reconstruct_benignTail (f : FilterTriple) {packets : List (List Byte)} {tail : List Byte}
    (h : ∀ p ∈ packets, CompletePacket p) (ht : BenignTail packets tail) :
    reconstruct f (packets.flatten ++ tail) = .ok (keptPayloads f packets) := by
  rw [reconstruct_packets f tail h, packetsFrom_benignTail f h ht, emitThen_ok_nil]

theorem reconstruct_badLength (f : FilterTriple) {packets : List (List Byte)} {tail : List Byte}
    (h : ∀ p ∈ packets, CompletePacket p) (hlen : 28 ≤ tail.length)
    (hd : declaredLength tail < 8) :
    reconstruct f (packets.flatten ++ tail) = .error .badLength := by
  rw [reconstruct_packets f tail h, packetsFrom_eq, packetPass_badLength f _ hlen hd,
    emitThen_error_right]

/-! ### The errors -/

/-- From 28 bytes of input on, the loop's only error is `BadLength` (R174, R180). -/
theorem packetLoop_error {f : FilterTriple} {B : List Byte} {n cur : Nat} {e : CmdError}
    (h : packetLoop f B n cur = .error e) : B.length < 28 ∨ e = .badLength := by
  induction n generalizing cur with
  | zero => cases h
  | succ n ih =>
    rw [packetLoop] at h
    split at h
    · cases h
    · next e' hp =>
      cases h
      obtain ⟨-, -, hlt, -⟩ | ⟨-, he⟩ := packetPass_fail hp
      · exact .inl hlt
      · exact .inr he
    · obtain hout | ⟨_, -, hrest⟩ := emitThen_eq_error h
      · cases hout
      · exact ih hrest

theorem reconstruct_nil (f : FilterTriple) : reconstruct f [] = .ok [] := rfl

theorem reconstruct_short (f : FilterTriple) {B : List Byte} (hpos : 0 < B.length)
    (hlt : B.length < 28) : reconstruct f B = .error .truncatedHeader := by
  have hpass := packetPass_short f [] hpos hlt
  rw [if_pos rfl, List.nil_append, List.length_nil] at hpass
  rw [reconstruct_eq, packetsFrom_eq, hpass]

/-! ### The command -/

section Command

variable {s : State} (hfits : s.lenFits s.inLen = true)

include hfits

theorem pktrx_endsOk {out : List Byte} (h : reconstruct s.filterTriple s.inBytes = .ok out) :
    ∃ t, exec .pktrx s = .next t ∧ EndsOk s t out :=
  ⟨_, exec_of_fits .pktrx hfits, endsOk_commandEnd (i := .pktrx) h⟩

theorem pktrx_endsInError {e : CmdError} (h : reconstruct s.filterTriple s.inBytes = .error e) :
    ∃ t, exec .pktrx s = .next t ∧ EndsInError s t (statusDone e.code) :=
  ⟨_, exec_of_fits .pktrx hfits, endsInError_commandEnd (i := .pktrx) h⟩

end Command

/-- Settles O25: the length of the input tells the first two outcomes, and from 28 bytes on no error
but `BadLength` is left. -/
theorem pktrxOutcomes : Obligations.PktrxOutcomes := by
  intro s hfits
  rw [← inBytes_length s]
  refine ⟨fun hzero => ?empty, fun hpos hlt => ?short, fun hlen => ?header⟩
  case empty =>
    rw [List.length_eq_zero_iff] at hzero
    exact pktrx_endsOk hfits (by rw [hzero, reconstruct_nil])
  case short => exact pktrx_endsInError hfits (reconstruct_short _ hpos hlt)
  case header =>
    cases hr : reconstruct s.filterTriple s.inBytes with
    | ok out =>
      obtain ⟨t, hexec, hend⟩ := pktrx_endsOk hfits hr
      exact ⟨t, hexec, .inl ⟨out, hend⟩⟩
    | error e =>
      obtain rfl := (packetLoop_error hr).resolve_left hlen.not_gt
      obtain ⟨t, hexec, hend⟩ := pktrx_endsInError hfits hr
      exact ⟨t, hexec, .inr hend⟩

/-- Settles O27: the loop reads the packets one by one, and a benign tail adds nothing. -/
theorem pktrxConcatenatesKeptPayloads : Obligations.PktrxConcatenatesKeptPayloads := by
  intro s packets tail hfits hin hpackets htail
  exact pktrx_endsOk hfits (hin ▸ reconstruct_benignTail _ hpackets htail)

/-- Settles O26: the stream of one packet and an empty tail. -/
theorem pktrxSinglePacket : Obligations.PktrxSinglePacket := by
  intro s hfits hp
  obtain ⟨t, hexec, hend⟩ := pktrxConcatenatesKeptPayloads s [s.inBytes] [] hfits (by simp)
    (by simpa using hp) (.inl rfl)
  refine ⟨t, hexec, ?_⟩
  rwa [← keptPayloads, keptPayloads_cons, keptPayloads_nil, List.append_nil] at hend

/-- Settles O28: complete packets before it do not save the command from a declared length
below 8. -/
theorem pktrxBadLength : Obligations.PktrxBadLength := by
  intro s packets tail hfits hin hpackets hlen hd
  exact pktrx_endsInError hfits (hin ▸ reconstruct_badLength _ hpackets hlen hd)

end Sys2Proof.Machine

/-! The exception entry (spec/60_exceptions.md): taking an error, and its frame. -/

namespace Sys2Proof.Machine

open Sys2Proof.Certificates

/-- Taking an error is a change of the outcome only (R213). -/
theorem sameBesideOutcome_raiseError (s : State) (e : CmdError) :
    SameBesideOutcome s (s.raiseError e) :=
  sameBesideOutcome_iff.2 rfl

/-- Settles O15: the three fields of the outcome by their reading rules, the rest by the frame. -/
theorem errorEntry : Obligations.ErrorEntry := fun s e =>
  ⟨State.raiseError_status s e, State.raiseError_outLen s e, State.raiseError_outBuf s e,
    sameBesideOutcome_raiseError s e⟩

end Sys2Proof.Machine

/-! Reset and hazards (spec/70_reset_and_hazards.md): the idle core, the state after reset, and a
command on the empty input that a reset leaves. -/

namespace Sys2Proof.Machine

open Sys2Proof.Certificates

/-! ### The idle core -/

/-- With no access to come the idle core waits (R240). -/
theorem stepIdle_of_pending_nil {s : State} (h : s.pending = []) : stepIdle s = .next s := by
  rw [stepIdle, h]

/-- Settles O8: with nothing in progress the step is that of the idle core, which waits. -/
theorem idleCoreWaits : Obligations.IdleCoreWaits := fun _ hr hp =>
  (step_of_idle hr).trans (stepIdle_of_pending_nil hp)

/-! ### The state after reset -/

/-- Settles O29: the registers hold their values by definition, and an empty memory has a value at no
address. -/
theorem resetLeavesSpecifiedValues : Obligations.ResetLeavesSpecifiedValues :=
  ⟨rfl, rfl, rfl, rfl, rfl, rfl, Memory.read_nil, Memory.read_nil, rfl, rfl⟩

/-- Settles O30: a reset is served in every state, and its result is read field by field. -/
theorem resetAccessAbandonsCommand : Obligations.ResetAccessAbandonsCommand := fun s =>
  ⟨s.applyReset, rfl, s.applyReset_status, s.applyReset_inLen, s.applyReset_outLen,
    s.applyReset_fltSrc, s.applyReset_fltDst, s.applyReset_fltDport, s.applyReset_inBuf,
    s.applyReset_outBuf, s.applyReset_running, s.applyReset_nMax, s.applyReset_pending,
    s.applyReset_hostReads⟩

/-! ### Commands on an empty input -/

theorem inBytes_eq_nil {s : State} (h : s.inLen = 0) : s.inBytes = [] :=
  List.length_eq_zero_iff.1 ((inBytes_length s).trans h)

/-- Within any capacity a command on an empty input answers (R16). -/
theorem exec_of_inLen_zero (i : Instr) {s : State} (h : s.inLen = 0) :
    exec i s = .next (commandEnd i s) :=
  exec_of_fits i (h ▸ s.lenFits_zero)

/-- An empty input has no start delimiter (R121). -/
theorem a85Decode_nil : a85Decode [] = .error .missingDelimiter := rfl

/-- No retained bytes make no groups, and none is left over (R153). -/
theorem parityCombine_nil : parityCombine [] = .ok [] := rfl

/-- Settles O31: after a reset `IN_LEN` is 0, and each command's function on the empty sequence gives
its outcome. -/
theorem commandsStraightAfterReset : Obligations.CommandsStraightAfterReset := by
  have hlen : State.reset.inLen = 0 := rfl
  have hin : State.reset.inBytes = [] := inBytes_eq_nil hlen
  refine ⟨⟨_, exec_of_inLen_zero .a85dec hlen, ?a85dec⟩,
    ⟨_, exec_of_inLen_zero .parpack hlen, ?parpack⟩, ⟨_, exec_of_inLen_zero .pktrx hlen, ?pktrx⟩⟩
  case a85dec =>
    exact endsInError_commandEnd (i := .a85dec) (e := .missingDelimiter) (hin ▸ a85Decode_nil)
  case parpack => exact endsOk_commandEnd (i := .parpack) (hin ▸ parityCombine_nil)
  case pktrx => exact endsOk_commandEnd (i := .pktrx) (hin ▸ reconstruct_nil _)

end Sys2Proof.Machine
